-- ==== Sys2Proof/Word.lean ====
section
/-! DEFINITION. The machine's units of data (00_scope.md R13, R15, R16). -/

namespace Sys2Proof

/-- A Word: 32 bits, unsigned, "the universal unit of storage, register value, and instruction encoding" (R13, R20). -/
abbrev Word := BitVec 32

/-- One byte of the program image and of the IN and OUT channels (R74, R76). -/
abbrev Byte := BitVec 8

/-- A register id: one of `R[0]` .. `R[7]` (R30, R115). -/
abbrev RegId := Fin 8

/-- The 25-bit immediate of the Immediate format (R111). -/
abbrev Imm25 := BitVec 25

end Sys2Proof
end

