-- ==== Sys2Proof/Machine/Codec.lean ====
section
/-! DEFINITION. The BitField Codec: the decoder's field-extraction primitive and the Loader's insert (30_encoding.md R100 to
R108). Shifts are those of `BitVec`, which give 0 (logical) or the sign (arithmetic) from 64 on, as R106 demands. -/

namespace Sys2Proof

/-- The codec's 64-bit container (R100, R108). -/
abbrev Container := BitVec 64

/-- How a codec call fails. Neither is a fatal VM error and the VM core reaches neither (R107, R276). -/
inductive CodecError where
  /-- `Overflow`: the value does not fit the field (R104, R105, R107). Raised by setUnsigned and setSigned. -/
  | overflow
  /-- The call is outside the precondition of R100; the spec gives it no result and a model refuses it (R107, U5;
  notes/assumptions/18.md). Safe. -/
  | outsideContainer
  deriving DecidableEq, Repr

/-- R100's precondition: `width ≤ 64` and `width + lsb ≤ 64`. DESIGN CHOICE: the spec says two things of `width = 0`. U5 of
93_implementation_defined.md lists it outside the preconditions, to be refused; R100's own condition admits it, and R101 to R103,
R106 and V37 give its results (0 for an extraction). The model follows those (notes/assumptions/18.md). -/
def inContainer (width lsb : Nat) : Bool := decide (width ≤ 64 ∧ width + lsb ≤ 64)

/-- The slice `word[lsb + width - 1 : lsb]`, empty when the width is 0 (R15, R100). -/
def bitField (word : Container) (width lsb : Nat) : BitVec width := word.extractLsb' lsb width

/-- `getUnsigned(word, width, lsb)` (R100). -/
def getUnsigned (word : Container) (width lsb : Nat) : Except CodecError Nat :=
  if inContainer width lsb then .ok (bitField word width lsb).toNat else .error .outsideContainer

/-- `getSigned(word, width, lsb)` (R101). -/
def getSigned (word : Container) (width lsb : Nat) : Except CodecError Int :=
  if inContainer width lsb then
    let u : Int := (bitField word width lsb).toNat
    .ok (if 0 < width ∧ word.getLsbD (lsb + width - 1) = true then u - 2 ^ width else u)
  else .error .outsideContainer

/-- `fitsUnsigned(value, width)` (R102). -/
def fitsUnsigned (value : Int) (width : Nat) : Bool := decide (0 ≤ value ∧ value < 2 ^ width)

/-- `fitsSigned(value, width)` (R103). -/
def fitsSigned (value : Int) (width : Nat) : Bool :=
  if width = 0 then decide (value = 0) else decide (-(2 ^ (width - 1)) ≤ value ∧ value < 2 ^ (width - 1))

/-- `word` with the bits `[lsb, lsb + width)` replaced by `v` and all other bits unchanged (R104, R105). -/
def insertField (word : Container) (width lsb : Nat) (v : BitVec width) : Container :=
  (word &&& ~~~((BitVec.allOnes width).setWidth 64 <<< lsb)) ||| (v.setWidth 64 <<< lsb)

/-- `setUnsigned(word, width, lsb, value)` (R104). -/
def setUnsigned (word : Container) (width lsb : Nat) (value : Int) : Except CodecError Container :=
  if inContainer width lsb then
    if fitsUnsigned value width then .ok (insertField word width lsb (BitVec.ofInt width value))
    else .error .overflow
  else .error .outsideContainer

/-- `setSigned(word, width, lsb, value)` (R105). -/
def setSigned (word : Container) (width lsb : Nat) (value : Int) : Except CodecError Container :=
  if inContainer width lsb then
    if fitsSigned value width then .ok (insertField word width lsb (BitVec.ofInt width value))
    else .error .overflow
  else .error .outsideContainer

/-- A field of an instruction Word: the codec's slice of the Word zero-extended to the container (R108). -/
def field (w : Word) (width lsb : Nat) : BitVec width := bitField (w.setWidth 64) width lsb

end Sys2Proof
end

