-- ==== Sys2Proof/Syntax.lean ====
section
/-! DEFINITION. The instructions of the VM ISA, one constructor per row of the opcode table (30_encoding.md R113, R120), and
the lines of its assembler (R124). -/

namespace Sys2Proof

/-- A decoded instruction. Fields an opcode ignores are dropped (R113, R122). Register ids and the immediate have the types
of their fields, so every term is a well-formed instruction (R115: all eight values are legal in every field). -/
inductive Instr where
  /-- opcode 0, `cmov rA, rB, rC` (R170) -/
  | conditionalMove (a b c : RegId)
  /-- opcode 1, `sload rA, rB, rC` (R200) -/
  | segLoad (a b c : RegId)
  /-- opcode 2, `sstore rA, rB, rC` (R204) -/
  | segStore (a b c : RegId)
  /-- opcode 3, `add rA, rB, rC` (R174) -/
  | add (a b c : RegId)
  /-- opcode 4, `mul rA, rB, rC` (R178) -/
  | multiply (a b c : RegId)
  /-- opcode 5, `div rA, rB, rC` (R182) -/
  | divide (a b c : RegId)
  /-- opcode 6, `nand rA, rB, rC` (R186) -/
  | nand (a b c : RegId)
  /-- opcode 7, `halt` (R230) -/
  | halt
  /-- opcode 8, `map rB, rC` (R208) -/
  | mapSegment (b c : RegId)
  /-- opcode 9, `unmap rC` (R216) -/
  | unmapSegment (c : RegId)
  /-- opcode 10, `out rC` (R250) -/
  | output (c : RegId)
  /-- opcode 11, `in rC` (R255) -/
  | input (c : RegId)
  /-- opcode 12, `loadprog rB, rC` (R234) -/
  | loadProgram (b c : RegId)
  /-- opcode 13, `li rA, imm` (R190) -/
  | loadImmediate (a : RegId) (imm : Imm25)
  deriving DecidableEq, Repr

/-- The head words of the assembler's lines (R124). -/
inductive AsmOp where
  | cmov | sload | sstore | add | mul | div | nand | halt | map | unmap | out | input | loadprog | li | word
  deriving DecidableEq, Repr

/-- What an operand of a line is (R124): a register `r<n>`, the immediate of `li`, or the Word of `.word`. -/
inductive AsmKind where
  | reg | imm | word
  deriving DecidableEq, Repr

/-- The operands each line takes, in the order R124 writes them. -/
def AsmOp.kinds : AsmOp → List AsmKind
  | .cmov | .sload | .sstore | .add | .mul | .div | .nand => [.reg, .reg, .reg]
  | .halt => []
  | .map | .loadprog => [.reg, .reg]
  | .unmap | .out | .input => [.reg]
  | .li => [.reg, .imm]
  | .word => [.word]

/-- A line as written, before any check: the numbers are what the text says (R124). -/
structure AsmLine where
  op : AsmOp
  args : List Nat
  deriving DecidableEq, Repr

end Sys2Proof
end

