-- ==== Sys2Proof/WellFormed.lean ====
section
/-! DEFINITION. Which assembler lines are well-formed (30_encoding.md R124). An `Instr` needs no check: its fields' types hold
exactly the values the encoding admits (R115). -/

namespace Sys2Proof

/-- Whether a number fits its operand: a register is `r0` .. `r7`, the immediate at most 0x01FFFFFF, a data Word below 2^32
(R124, R102). -/
def AsmKind.admits : AsmKind → Nat → Bool
  | .reg, n => n < 8
  | .imm, n => n < 2 ^ 25
  | .word, n => n < 2 ^ 32

/-- The operands match their kinds one by one, with none missing and none left over. -/
def admitsAll : List AsmKind → List Nat → Bool
  | [], [] => true
  | k :: ks, n :: ns => k.admits n && admitsAll ks ns
  | [], _ :: _ => false
  | _ :: _, [] => false

/-- "An assembler refuses `li` with an immediate above 0x01FFFFFF ... and a register outside `r0`..`r7`" (R124). -/
def AsmLine.wellFormed (l : AsmLine) : Bool := admitsAll l.op.kinds l.args

end Sys2Proof
end

