-- ==== Sys2Proof/Decode.lean ====
section
/-! DEFINITION. The instruction decoder and encoder (30_encoding.md R109 to R125) and the assembler's lines (R124). -/

namespace Sys2Proof

/-- The decoder's output (R113): an instruction, or `Invalid(op)` for the opcodes 14 and 15 (R121), which is no instruction of
the opcode table (notes/assumptions/17.md). -/
inductive Decoded where
  | instr (i : Instr)
  | invalid (op : BitVec 4)
  deriving DecidableEq, Repr

/-- A 3-bit register field at `lsb` (R110, R111, R115). -/
def regField (w : Word) (lsb : Nat) : RegId := (field w 3 lsb).toFin

/-- The Standard format's instructions by opcode (R113, R120); any opcode that is not one of 0 .. 12 is `Invalid(op)`. -/
def standardInstr (op : BitVec 4) (a b c : RegId) : Decoded :=
  match op.toNat with
  | 0 => .instr (.conditionalMove a b c)
  | 1 => .instr (.segLoad a b c)
  | 2 => .instr (.segStore a b c)
  | 3 => .instr (.add a b c)
  | 4 => .instr (.multiply a b c)
  | 5 => .instr (.divide a b c)
  | 6 => .instr (.nand a b c)
  | 7 => .instr .halt
  | 8 => .instr (.mapSegment b c)
  | 9 => .instr (.unmapSegment c)
  | 10 => .instr (.output c)
  | 11 => .instr (.input c)
  | 12 => .instr (.loadProgram b c)
  | _ => .invalid op

/-- The decode function (R112): total, without state (R117). -/
def decode (w : Word) : Decoded :=
  if field w 4 28 = 13 then .instr (.loadImmediate (regField w 25) (field w 25 0))
  else standardInstr (field w 4 28) (regField w 6) (regField w 3) (regField w 0)

/-- The opcode of an instruction (R120). -/
def opcode : Instr → BitVec 4
  | .conditionalMove _ _ _ => 0
  | .segLoad _ _ _ => 1
  | .segStore _ _ _ => 2
  | .add _ _ _ => 3
  | .multiply _ _ _ => 4
  | .divide _ _ _ => 5
  | .nand _ _ _ => 6
  | .halt => 7
  | .mapSegment _ _ => 8
  | .unmapSegment _ => 9
  | .output _ => 10
  | .input _ => 11
  | .loadProgram _ _ => 12
  | .loadImmediate _ _ => 13

/-- A register id as its 3 bits. -/
def regBits (r : RegId) : BitVec 3 := BitVec.ofNat 3 r.val

/-- A Standard-format word with bits 27:9 zero (R110, R124). -/
def standardWord (op : BitVec 4) (a b c : RegId) : Word :=
  op ++ (0#19) ++ regBits a ++ regBits b ++ regBits c

/-- An Immediate-format word (R111). -/
def immediateWord (a : RegId) (imm : Imm25) : Word := (13#4) ++ regBits a ++ imm

/-- The canonical encoding: every ignored field and bit is 0 (R124). -/
def encode : Instr → Word
  | .conditionalMove a b c => standardWord 0 a b c
  | .segLoad a b c => standardWord 1 a b c
  | .segStore a b c => standardWord 2 a b c
  | .add a b c => standardWord 3 a b c
  | .multiply a b c => standardWord 4 a b c
  | .divide a b c => standardWord 5 a b c
  | .nand a b c => standardWord 6 a b c
  | .halt => standardWord 7 0 0 0
  | .mapSegment b c => standardWord 8 0 b c
  | .unmapSegment c => standardWord 9 0 0 c
  | .output c => standardWord 10 0 0 c
  | .input c => standardWord 11 0 0 c
  | .loadProgram b c => standardWord 12 0 b c
  | .loadImmediate a imm => immediateWord a imm

/-- The bits of a word that its decoding depends on: the opcode field and the fields the opcode uses (R116, R122). -/
def significantBits : Instr → Word
  | .conditionalMove _ _ _ | .segLoad _ _ _ | .segStore _ _ _ | .add _ _ _ | .multiply _ _ _ | .divide _ _ _
  | .nand _ _ _ => 0xF00001FF
  | .halt => 0xF0000000
  | .mapSegment _ _ | .loadProgram _ _ => 0xF000003F
  | .unmapSegment _ | .output _ | .input _ => 0xF0000007
  | .loadImmediate _ _ => 0xFFFFFFFF

/-- The instruction the decoder reads from an opcode-table row's word. An instruction is one Word (R109), so bits from 32 on
hold none of it. -/
def decodeTableWord (nbits w : Nat) : Option Instr :=
  match decode (BitVec.ofNat 32 (w % 2 ^ nbits)) with
  | .instr i => some i
  | .invalid _ => none

/-- A register operand of a line; the line's check has put it below 8. -/
def asmReg (n : Nat) : RegId := Fin.ofNat 8 n

/-- The Word a line stands for, or `none` where the assembler refuses it (R124). -/
def assemble (l : AsmLine) : Option Word :=
  if l.wellFormed then
    match l.op, l.args with
    | .cmov, [a, b, c] => some (encode (.conditionalMove (asmReg a) (asmReg b) (asmReg c)))
    | .sload, [a, b, c] => some (encode (.segLoad (asmReg a) (asmReg b) (asmReg c)))
    | .sstore, [a, b, c] => some (encode (.segStore (asmReg a) (asmReg b) (asmReg c)))
    | .add, [a, b, c] => some (encode (.add (asmReg a) (asmReg b) (asmReg c)))
    | .mul, [a, b, c] => some (encode (.multiply (asmReg a) (asmReg b) (asmReg c)))
    | .div, [a, b, c] => some (encode (.divide (asmReg a) (asmReg b) (asmReg c)))
    | .nand, [a, b, c] => some (encode (.nand (asmReg a) (asmReg b) (asmReg c)))
    | .halt, [] => some (encode .halt)
    | .map, [b, c] => some (encode (.mapSegment (asmReg b) (asmReg c)))
    | .unmap, [c] => some (encode (.unmapSegment (asmReg c)))
    | .out, [c] => some (encode (.output (asmReg c)))
    | .input, [c] => some (encode (.input (asmReg c)))
    | .loadprog, [b, c] => some (encode (.loadProgram (asmReg b) (asmReg c)))
    | .li, [a, v] => some (encode (.loadImmediate (asmReg a) (BitVec.ofNat 25 v)))
    | .word, [v] => some (BitVec.ofNat 32 v)
    | _, _ => none
  else none

/-- The line an instruction is written as (R124). -/
def toLine : Instr → AsmLine
  | .conditionalMove a b c => ⟨.cmov, [a.val, b.val, c.val]⟩
  | .segLoad a b c => ⟨.sload, [a.val, b.val, c.val]⟩
  | .segStore a b c => ⟨.sstore, [a.val, b.val, c.val]⟩
  | .add a b c => ⟨.add, [a.val, b.val, c.val]⟩
  | .multiply a b c => ⟨.mul, [a.val, b.val, c.val]⟩
  | .divide a b c => ⟨.div, [a.val, b.val, c.val]⟩
  | .nand a b c => ⟨.nand, [a.val, b.val, c.val]⟩
  | .halt => ⟨.halt, []⟩
  | .mapSegment b c => ⟨.map, [b.val, c.val]⟩
  | .unmapSegment c => ⟨.unmap, [c.val]⟩
  | .output c => ⟨.out, [c.val]⟩
  | .input c => ⟨.input, [c.val]⟩
  | .loadProgram b c => ⟨.loadprog, [b.val, c.val]⟩
  | .loadImmediate a imm => ⟨.li, [a.val, imm.toNat]⟩

end Sys2Proof
end

