-- ==== Sys2Proof/Config.lean ====
section
/-! DEFINITION. What an implementation fixes and the spec leaves open (00_scope.md R14): constants with no body, so no proof
can see what they are. -/

namespace Sys2Proof.Config

/-- The largest handle the implementation's handle table can hold: `MaxHandles - 1`. The range 1 .. 2^32 that R14 gives
`MaxHandles` is the range of this Word plus one. Free value (92_eei_decisions.md D6; notes/assumptions/7.md). -/
opaque topHandle : Word

/-- `MemCapacity`: the Words all live segments may hold together. Free value (D7; notes/assumptions/7.md). -/
opaque memCapacity : Nat

/-- The free Word from which the exit status of a fail-reason code is made (D5; notes/assumptions/9.md). -/
opaque rawFailExitStatus : BitVec 8 → Word

/-- `failExitStatus` of R14 and R41, by the reason's code: any function that never answers 0. A raw value of 0 is replaced,
so every non-zero function is one of the values this can take. DESIGN CHOICE, safe (notes/assumptions/9.md). -/
def failExitStatus (code : BitVec 8) : Word :=
  if rawFailExitStatus code = 0 then 1 else rawFailExitStatus code

end Sys2Proof.Config
end

