-- ==== Sys2Proof/Machine/State.lean ====
section
/-! DEFINITION. The state of the VM core as plain data (10_state.md), the reasons a step can stop without a next state, and the
state after reset. -/

namespace Sys2Proof.Machine

/-- The fail reasons of 60_exceptions.md R271. Each is the operand of the FSM state Failed, not a `Fault` of the model. -/
inductive FailReason where
  | invalidOpcode | divideByZero | invalidHandle | offsetOutOfRange | fetchOutOfRange | freeSegmentZero
  | outputOutOfRange | allocationFailed
  deriving DecidableEq, Repr

/-- The control FSM: "exactly three states" (R38). -/
inductive Fsm where
  | running
  | halted
  | failed (reason : FailReason)
  deriving DecidableEq, Repr

/-- One written Word of a segment: its offset and its value. The store holds Words, not bytes (R60, R78), so this is a pair of
an offset and a Word and no `Host.Cell` (notes/assumptions/6.md). -/
abbrev WordCell := Nat × Word

/-- A segment: its length in Words (R63) and its Words that are not 0, by rising offset. An offset below the length that is not
listed reads 0, as `SegAlloc` leaves it (R64; notes/assumptions/6.md). -/
structure Segment where
  len : Word
  cells : List WordCell
  deriving DecidableEq, Repr

/-- A slot of the handle table (R44). -/
inductive Slot where
  | live (seg : Segment)
  | free
  deriving DecidableEq, Repr

/-- The segment store (R44): the machine's only memory (R47). The head of `freeStack` is its top, the most recently freed
handle. -/
structure Memory where
  table : List Slot
  freeStack : List Word
  deriving DecidableEq, Repr

/-- The store's two capacities as arguments of a run (00_scope.md R14). `MaxHandles` is `topHandle + 1`, so that every value of
the field satisfies `1 <= MaxHandles <= 2^32`. -/
structure Limits where
  topHandle : Word
  memCapacity : Nat
  deriving DecidableEq, Repr

/-- What Output does with a value above 255 (R14, R250, R252). -/
inductive OutputRangePolicy where
  | fatal
  | maskLow8
  deriving DecidableEq, Repr

/-- The parameters of R14 a run is given. No step writes them. `limits` is `none` where the run does not say, and the
capacities are then the implementation's own, opaque ones of `Config` (notes/assumptions/7.md). -/
structure Params where
  limits : Option Limits
  outputRangePolicy : OutputRangePolicy
  deriving DecidableEq, Repr

/-- The state of the VM core (10_state.md), and the host's side of the IN channel. -/
structure State where
  /-- `R[0]` .. `R[7]` (R30). -/
  regs : Vector Word 8
  /-- `PC`, a word index into segment 0 (R33). -/
  pc : Word
  /-- The control FSM's state (R38). -/
  fsm : Fsm
  /-- RUNSTATE.`INWAIT` (R40, R147). -/
  inWait : Bool
  /-- The segment store (R44). -/
  mem : Memory
  /-- The parameters of R14. -/
  params : Params
  /-- The IN bytes not yet received, the next one first (44_io.md R257). The host's state, kept here so that a step is a
  function of the state (notes/assumptions/4.md). -/
  inp : List Byte
  /-- `eofAtEnd` of R257: whether IN answers EOF once `inp` is exhausted (notes/assumptions/4.md). -/
  eofAtEnd : Bool
  /-- The bytes emitted on OUT so far, in order (R49). -/
  out : List Byte
  deriving DecidableEq, Repr

/-- Why the model stops with a fault: never. Every condition the spec describes has its transition: a fatal error is the next
state Failed(reason) (60_exceptions.md R272; notes/assumptions/1.md), a terminal state stays as it is (R38;
notes/assumptions/2.md) and an Input without a response holds (R147; notes/assumptions/3.md). -/
inductive Fault where
  deriving DecidableEq, Repr

/-- Why the model refuses an instruction. -/
inductive Refusal where
  /-- Raised by an arm of `exec` for an instruction that has no meaning yet; no arm does. Safe. -/
  | notModelled (mnemonic : String)
  deriving DecidableEq, Repr

/-- The machine after reset with the program image of 0 bytes, which "yields a zero-length segment 0" (R51, R302, R305), no
IN response delivered, the default output policy and no capacities named (notes/assumptions/4.md, 7.md, 10.md, 13.md).
`State.boot` is reset with any image, parameters and input. -/
def State.reset : State where
  regs := Vector.replicate 8 0
  pc := 0
  fsm := .running
  inWait := false
  mem := { table := [.live { len := 0, cells := [] }], freeStack := [] }
  params := { limits := none, outputRangePolicy := .fatal }
  inp := []
  eofAtEnd := false
  out := []

end Sys2Proof.Machine
end

