-- ==== Sys2Proof/Machine/Flags.lean ====
section
/-! DEFINITION. Conditions and status. The VM ISA has no flags (10_state.md R42): its conditions test a register against zero
directly, and its one status register is the host's read-only RUNSTATE (R40). -/

namespace Sys2Proof.Machine

/-- The condition of ConditionalMove and LoadProgram: all 32 bits are tested (R42, R171). -/
def nonZero (w : Word) : Bool := w != 0#32

/-- The code of a fail reason, RUNSTATE.`REASON` (60_exceptions.md R271). -/
def FailReason.code : FailReason → BitVec 8
  | .invalidOpcode => 1
  | .divideByZero => 2
  | .invalidHandle => 3
  | .offsetOutOfRange => 4
  | .fetchOutOfRange => 5
  | .freeSegmentZero => 6
  | .outputOutOfRange => 7
  | .allocationFailed => 8

/-- RUNSTATE.`STATE` (R40). -/
def Fsm.stateBits : Fsm → BitVec 2
  | .running => 0
  | .halted => 1
  | .failed _ => 2

/-- RUNSTATE.`REASON` (R40). -/
def Fsm.reasonBits : Fsm → BitVec 8
  | .running => 0
  | .halted => 0
  | .failed r => r.code

/-- Whether the FSM is terminal (00_scope.md R21). -/
def Fsm.terminal : Fsm → Bool
  | .running => false
  | .halted => true
  | .failed _ => true

/-- RUNSTATE.`INWAIT`: 1 only while Running (R40). -/
def State.inWaitBit (s : State) : BitVec 1 := BitVec.ofBool (s.inWait && !s.fsm.terminal)

/-- The status register RUNSTATE (R40), computed from the FSM state and the wait indication (notes/assumptions/11.md). -/
def State.runstate (s : State) : Word :=
  (0#16) ++ s.fsm.reasonBits ++ (0#5) ++ s.inWaitBit ++ s.fsm.stateBits

/-- The exit status (R41): not produced while Running, 0 when Halted, `failExitStatus(reason)` when Failed. -/
def State.exitStatus (s : State) : Option Word :=
  match s.fsm with
  | .running => none
  | .halted => some 0
  | .failed r => some (Config.failExitStatus r.code)

/-- The observable results of a run (60_exceptions.md R277). -/
structure Observation where
  out : List Byte
  exitStatus : Option Word
  runstate : Word
  deriving DecidableEq, Repr

/-- What the block boundary shows of a state (R277). -/
def State.observe (s : State) : Observation := ⟨s.out, s.exitStatus, s.runstate⟩

end Sys2Proof.Machine
end

