-- ==== Sys2Proof/Machine/Operands.lean ====
section
/-! DEFINITION. The operand forms of the VM ISA: register operands and the zero-extended immediate; there is no other
(30_encoding.md R114, R115). -/

namespace Sys2Proof.Machine

/-- `R[i]` (00_scope.md R17). No register is hard-wired or aliased (R30). -/
def State.readReg (s : State) (r : RegId) : Word := s.regs.get r

/-- `R[i] <- v` (R17). -/
def State.writeReg (s : State) (r : RegId) (v : Word) : State := { s with regs := s.regs.set r v }

/-- The immediate operand: `zext_32(w[24:0])` (R114). -/
def immValue (imm : Imm25) : Word := imm.setWidth 32

/-- The Word an input byte lands as: `zext_32(b)` (44_io.md R255). -/
def byteValue (b : Byte) : Word := b.setWidth 32

end Sys2Proof.Machine
end

