-- ==== Sys2Proof/Machine/Ops.lean ====
section
/-! DEFINITION. The named operations every meaning is built from: the segment store's (20_memory.md R64 to R73), the FSM's
post-dispatch actions (40_execution_cycle.md R150, R153), raising a fatal error (60_exceptions.md R272 to R274) and the byte
channels (44_io.md). There is no return from a fatal error to stand beside raising it (R278). -/

namespace Sys2Proof.Machine

/-! ## The Words of one segment -/

/-- The Word at an offset; an offset that is not listed reads 0 (R64). -/
def cellsRead (i : Nat) : List WordCell → Word
  | [] => 0#32
  | (j, u) :: rest => if i = j then u else cellsRead i rest

/-- The list with the Word at an offset replaced, in rising order and without entries of 0. -/
def cellsWrite (i : Nat) (v : Word) : List WordCell → List WordCell
  | [] => if v = 0#32 then [] else [(i, v)]
  | (j, u) :: rest =>
    if i < j then (if v = 0#32 then (j, u) :: rest else (i, v) :: (j, u) :: rest)
    else if i = j then (if v = 0#32 then rest else (i, v) :: rest)
    else (j, u) :: cellsWrite i v rest

/-- The canonical form: offsets strictly rising within `[lo, hi)` and no Word equal to 0. -/
def cellsOk (lo hi : Nat) : List WordCell → Bool
  | [] => true
  | (j, u) :: rest => decide (lo ≤ j) && decide (j < hi) && u != 0#32 && cellsOk (j + 1) hi rest

/-- The Words of a list placed from an offset on. -/
def cellsOf (k : Nat) : List Word → List WordCell
  | [] => []
  | w :: ws => if w = 0#32 then cellsOf (k + 1) ws else (k, w) :: cellsOf (k + 1) ws

/-- A zero-filled segment (R64). -/
def Segment.zeroed (len : Word) : Segment := ⟨len, []⟩

/-- The segment that holds the Words of a list, stored sequentially (70_reset_and_hazards.md R301). -/
def Segment.ofWords (ws : List Word) : Segment := ⟨BitVec.ofNat 32 ws.length, cellsOf 0 ws⟩

/-- The Word at an offset of a segment, `none` where the offset is not below the length (R65, R67). -/
def Segment.read (g : Segment) (i : Word) : Option Word :=
  if i < g.len then some (cellsRead i.toNat g.cells) else none

/-- The segment with the Word at an offset replaced, `none` where the offset is not below the length (R66, R67). -/
def Segment.write (g : Segment) (i v : Word) : Option Segment :=
  if i < g.len then some { g with cells := cellsWrite i.toNat v g.cells } else none

/-- A segment's Words are in canonical form and lie below its length. -/
def Segment.wf (g : Segment) : Bool := cellsOk 0 g.len.toNat g.cells

/-! ## The segment store -/

/-- The store with no slots (R48). -/
def Memory.empty : Memory := ⟨[], []⟩

def Slot.wf : Slot → Bool
  | .live g => g.wf
  | .free => true

/-- Every live segment is in canonical form (notes/assumptions/6.md). -/
def Memory.wf (m : Memory) : Bool := m.table.all Slot.wf

/-- The segment a handle names, `none` where the handle is unknown or freed; the handle is its full 32-bit value (R44). -/
def Memory.liveSeg (m : Memory) (h : Word) : Option Segment :=
  match m.table[h.toNat]? with
  | some (.live g) => some g
  | some .free => none
  | none => none

/-- `table[h] <- slot`. -/
def Memory.setSlot (m : Memory) (h : Word) (slot : Slot) : Memory :=
  { m with table := m.table.set h.toNat slot }

def Slot.words : Slot → Nat
  | .live g => g.len.toNat
  | .free => 0

/-- `liveWords`: the sum of the lengths of the live segments (R64). -/
def Memory.liveWords (m : Memory) : Nat := (m.table.map Slot.words).sum

/-- `MaxHandles` of the run (00_scope.md R14). -/
def Params.maxHandles (p : Params) : Nat :=
  match p.limits with
  | some l => l.topHandle.toNat + 1
  | none => Config.topHandle.toNat + 1

/-- `MemCapacity` of the run (R14). -/
def Params.memCapacity (p : Params) : Nat :=
  match p.limits with
  | some l => l.memCapacity
  | none => Config.memCapacity

/-- `SegRead(h, i)` (R65). -/
def Memory.segRead (m : Memory) (h i : Word) : Except FailReason Word :=
  match m.liveSeg h with
  | none => .error .invalidHandle
  | some g =>
    match g.read i with
    | none => .error .offsetOutOfRange
    | some w => .ok w

/-- `SegWrite(h, i, v)` (R66). -/
def Memory.segWrite (m : Memory) (h i v : Word) : Except FailReason Memory :=
  match m.liveSeg h with
  | none => .error .invalidHandle
  | some g =>
    match g.write i v with
    | none => .error .offsetOutOfRange
    | some g' => .ok (m.setSlot h (.live g'))

/-- `SegAlloc(len)` (R64): the new handle and the store that holds it. The test for a full table is `MaxHandles <= n` where
the pseudocode has `n = MaxHandles`; R45 (d) makes them one (notes/assumptions/8.md). -/
def Memory.segAlloc (p : Params) (len : Word) (m : Memory) : Except FailReason (Word × Memory) :=
  if p.memCapacity < m.liveWords + len.toNat then .error .allocationFailed
  else
    match m.freeStack with
    | h :: rest => .ok (h, { m with freeStack := rest }.setSlot h (.live (Segment.zeroed len)))
    | [] =>
      if p.maxHandles ≤ m.table.length then .error .allocationFailed
      else .ok (BitVec.ofNat 32 m.table.length, { m with table := m.table ++ [.live (Segment.zeroed len)] })

/-- `SegFree(h)` (R68). -/
def Memory.segFree (m : Memory) (h : Word) : Except FailReason Memory :=
  if h = 0#32 then .error .freeSegmentZero
  else
    match m.liveSeg h with
    | none => .error .invalidHandle
    | some _ => .ok { m.setSlot h .free with freeStack := h :: m.freeStack }

/-- `SegLen(h)` (R69). No instruction uses it. -/
def Memory.segLen (m : Memory) (h : Word) : Except FailReason Word :=
  match m.liveSeg h with
  | none => .error .invalidHandle
  | some g => .ok g.len

/-- `SegInstall(h)` (R70). Its one failure is a handle that is not live: R70, R234, R271 and R275 give it no capacity check, so
an install of a longer segment can leave more live Words than R45 (e) says (DEDUCED, unsafe; notes/assumptions/21.md). -/
def Memory.segInstall (m : Memory) (h : Word) : Except FailReason Memory :=
  match m.liveSeg h with
  | none => .error .invalidHandle
  | some g => .ok (m.setSlot 0#32 (.live g))

/-- `SegReleaseAll()` (R73): "the entire store is torn down" (notes/assumptions/12.md). -/
def Memory.segReleaseAll (_ : Memory) : Memory := Memory.empty

/-- Segment 0 with a Word placed at an index, grown to reach it: what loading a program there leaves. For `withFetchWord`
only. -/
def Memory.plantWord (m : Memory) (i v : Word) : Memory :=
  let g := (m.liveSeg 0#32).getD (Segment.zeroed 0)
  let g' : Segment := ⟨if i < g.len then g.len else i + 1, cellsWrite i.toNat v g.cells⟩
  { m with table := .live g' :: m.table.tail }

/-! ## The FSM's actions at the end of a step -/

/-- The default PC update of a completed instruction: `PC <- PC + 1` mod 2^32 (R150). The core is not waiting then (R40). -/
def State.advance (s : State) : State := { s with pc := s.pc + 1, inWait := false }

/-- LoadProgram's PC update: the target exactly, with no increment (R150, R151). -/
def State.jumpTo (s : State) (t : Word) : State := { s with pc := t, inWait := false }

/-- `raise Fatal(reason)`: taking the machine's one kind of exception (R272 to R274). The FSM goes to Failed(reason) and the
store is released; registers, PC, parameters and the byte channels stay as they were before the step. -/
def State.raiseFatal (s : State) (r : FailReason) : State :=
  { s with fsm := .failed r, inWait := false, mem := s.mem.segReleaseAll }

/-- Halt's transition: the store is released, the PC is not advanced (R150, R230). -/
def State.enterHalted (s : State) : State :=
  { s with fsm := .halted, inWait := false, mem := s.mem.segReleaseAll }

/-- The hold: nothing changes but INWAIT, which reads 1 (R147, R256; notes/assumptions/3.md). -/
def State.hold (s : State) : State := { s with inWait := true }

/-! ## Fetch -/

/-- Fetch: `SegRead(0, PC)` with the reason FetchOutOfRange in place of OffsetOutOfRange (R65, R141, R142). With slot 0 not
live, which R45 (b) rules out while Running, `SegRead`'s own InvalidHandle stands (notes/assumptions/15.md). -/
def State.fetch (s : State) : Except FailReason Word :=
  match s.mem.segRead 0#32 s.pc with
  | .ok w => .ok w
  | .error .offsetOutOfRange => .error .fetchOutOfRange
  | .error r => .error r

/-! ## The byte channels -/

/-- A response on IN (00_scope.md R9). -/
inductive InResponse where
  | byte (b : Byte)
  | eof
  deriving DecidableEq, Repr

/-- What a response leaves in the destination register: the byte zero-extended, or 0xFFFFFFFF (R255). -/
def InResponse.value : InResponse → Word
  | .byte b => byteValue b
  | .eof => 0xFFFFFFFF

/-- `receive()` (R255, R257): the response and the channel after it, `none` where IN has no response. -/
def State.receive (s : State) : Option (InResponse × State) :=
  match s.inp with
  | b :: rest => some (.byte b, { s with inp := rest })
  | [] => if s.eofAtEnd then some (.eof, s) else none

/-- `emit(b)` (R251). -/
def State.emit (s : State) (b : Byte) : State := { s with out := s.out ++ [b] }

/-- The byte Output emits for a value, or `none` where the policy makes the value fatal (R250, R252). -/
def OutputRangePolicy.byteOf (p : OutputRangePolicy) (v : Word) : Option Byte :=
  match p with
  | .maskLow8 => some (v.setWidth 8)
  | .fatal => if 255 < v then none else some (v.setWidth 8)

/-- The host delivers a response on IN between steps, which lifts a hold (R147). After EOF every later Input receives EOF, so
a byte that comes after it is not received (R257; notes/assumptions/5.md). -/
def State.hostDeliver (s : State) (resp : InResponse) : State :=
  match resp with
  | .byte b => { s with inp := if s.eofAtEnd then s.inp else s.inp ++ [b], inWait := false }
  | .eof => { s with eofAtEnd := true, inWait := false }

end Sys2Proof.Machine
end

