-- ==== Sys2Proof/Machine/Boot.lean ====
section
/-! DEFINITION. Reset with a program image: the Loader and the reset sequence (70_reset_and_hazards.md R300 to R305). -/

namespace Sys2Proof.Machine

/-- `{b0, b1, b2, b3}`: the Word of four image bytes in stream order (20_memory.md R74, R301). -/
def packWord (b0 b1 b2 b3 : Byte) : Word := b0 ++ b1 ++ b2 ++ b3

/-- The same Word as the Loader packs it, by four inserts of the codec (R301). -/
def loaderWord (b0 b1 b2 b3 : Byte) : Except CodecError Container :=
  match setUnsigned 0 8 24 b0.toNat with
  | .error e => .error e
  | .ok w1 =>
    match setUnsigned w1 8 16 b1.toNat with
    | .error e => .error e
    | .ok w2 =>
      match setUnsigned w2 8 8 b2.toNat with
      | .error e => .error e
      | .ok w3 => setUnsigned w3 8 0 b3.toNat

/-- Image framing: one Word per whole group of 4 bytes; "any trailing 1-3 bytes are silently discarded" (R301, R302). -/
def frameImage : List Byte → List Word
  | b0 :: b1 :: b2 :: b3 :: rest => packWord b0 b1 b2 b3 :: frameImage rest
  | _ => []

/-- The state in which the reset sequence starts: the store has no slots and everything else has its reset value (R303). -/
def State.blank (p : Params) (inp : List Byte) (eofAtEnd : Bool) : State where
  regs := Vector.replicate 8 0
  pc := 0
  fsm := .running
  inWait := false
  mem := Memory.empty
  params := p
  inp := inp
  eofAtEnd := eofAtEnd
  out := []

/-- The reset sequence (R303) on an image, with the parameters of the run and its input. An image of more than 2^32 - 1 Words,
or one the store cannot hold, ends in Failed(AllocationFailed) (R304; notes/assumptions/14.md). -/
def State.boot (p : Params) (image : List Byte) (inp : List Byte) (eofAtEnd : Bool) : State :=
  let s := State.blank p inp eofAtEnd
  let ws := frameImage image
  if 2 ^ 32 - 1 < ws.length then s.raiseFatal .allocationFailed
  else
    match s.mem.segAlloc p (BitVec.ofNat 32 ws.length) with
    | .error r => s.raiseFatal r
    | .ok (h, m) => { s with mem := m.setSlot h (.live (Segment.ofWords ws)) }

end Sys2Proof.Machine
end

