-- ==== Sys2Proof/Machine/ByteIO.lean ====
section
/-! DEFINITION. Byte I/O (44_io.md). -/

namespace Sys2Proof.Machine

/-- Output (R250 to R253), under either policy of R252. -/
def execOutput (c : RegId) (s : State) : Host.Outcome State Fault Refusal :=
  match s.params.outputRangePolicy.byteOf (s.readReg c) with
  | none => .next (s.raiseFatal .outputOutOfRange)
  | some b => .next (s.emit b).advance

/-- Input (R255 to R258): where IN has no response, the core holds. -/
def execInput (c : RegId) (s : State) : Host.Outcome State Fault Refusal :=
  match s.receive with
  | none => .next s.hold
  | some (resp, t) => .next (t.writeReg c resp.value).advance

end Sys2Proof.Machine
end

