-- ==== Sys2Proof/Machine/Control.lean ====
section
/-! DEFINITION. Control transfer (43_control.md). -/

namespace Sys2Proof.Machine

/-- Halt (R230, R231). -/
def execHalt (s : State) : Host.Outcome State Fault Refusal := .next s.enterHalted

/-- LoadProgram (R234 to R237): install the segment `R[B]` unless it is 0, then jump to `R[C]`. -/
def execLoadProgram (b c : RegId) (s : State) : Host.Outcome State Fault Refusal :=
  if nonZero (s.readReg b) then
    match s.mem.segInstall (s.readReg b) with
    | .error r => .next (s.raiseFatal r)
    | .ok m => .next ({ s with mem := m }.jumpTo (s.readReg c))
  else .next (s.jumpTo (s.readReg c))

end Sys2Proof.Machine
end

