-- ==== Sys2Proof/Machine/RegisterOps.lean ====
section
/-! DEFINITION. The register operations (41_register_ops.md). Every operand is read from the state before the step (R19, R149). -/

namespace Sys2Proof.Machine

/-- ConditionalMove (R170, R171). -/
def execConditionalMove (a b c : RegId) (s : State) : Host.Outcome State Fault Refusal :=
  if nonZero (s.readReg c) then .next (s.writeReg a (s.readReg b)).advance else .next s.advance

/-- Add (R174, R175). -/
def execAdd (a b c : RegId) (s : State) : Host.Outcome State Fault Refusal :=
  .next (s.writeReg a (s.readReg b + s.readReg c)).advance

/-- Multiply (R178, R179): the low 32 bits of the product. -/
def execMultiply (a b c : RegId) (s : State) : Host.Outcome State Fault Refusal :=
  .next (s.writeReg a (s.readReg b * s.readReg c)).advance

/-- Divide (R182, R183): unsigned; a zero divisor is fatal. -/
def execDivide (a b c : RegId) (s : State) : Host.Outcome State Fault Refusal :=
  if s.readReg c = 0#32 then .next (s.raiseFatal .divideByZero)
  else .next (s.writeReg a (s.readReg b / s.readReg c)).advance

/-- Nand (R186, R187). -/
def execNand (a b c : RegId) (s : State) : Host.Outcome State Fault Refusal :=
  .next (s.writeReg a (~~~(s.readReg b &&& s.readReg c))).advance

/-- LoadImmediate (R190, R191). -/
def execLoadImmediate (a : RegId) (imm : Imm25) (s : State) : Host.Outcome State Fault Refusal :=
  .next (s.writeReg a (immValue imm)).advance

end Sys2Proof.Machine
end

