-- ==== Sys2Proof/Machine/SegmentOps.lean ====
section
/-! DEFINITION. The segment operations (42_segment_ops.md). -/

namespace Sys2Proof.Machine

/-- SegLoad (R200, R201): the handle is in `B`, the offset in `C`. -/
def execSegLoad (a b c : RegId) (s : State) : Host.Outcome State Fault Refusal :=
  match s.mem.segRead (s.readReg b) (s.readReg c) with
  | .error r => .next (s.raiseFatal r)
  | .ok v => .next (s.writeReg a v).advance

/-- SegStore (R204, R205): the handle is in `A`, the offset in `B`, the value in `C`. -/
def execSegStore (a b c : RegId) (s : State) : Host.Outcome State Fault Refusal :=
  match s.mem.segWrite (s.readReg a) (s.readReg b) (s.readReg c) with
  | .error r => .next (s.raiseFatal r)
  | .ok m => .next { s with mem := m }.advance

/-- MapSegment (R208, R209). -/
def execMapSegment (b c : RegId) (s : State) : Host.Outcome State Fault Refusal :=
  match s.mem.segAlloc s.params (s.readReg c) with
  | .error r => .next (s.raiseFatal r)
  | .ok (h, m) => .next ({ s with mem := m }.writeReg b h).advance

/-- UnmapSegment (R216, R217). -/
def execUnmapSegment (c : RegId) (s : State) : Host.Outcome State Fault Refusal :=
  match s.mem.segFree (s.readReg c) with
  | .error r => .next (s.raiseFatal r)
  | .ok m => .next { s with mem := m }.advance

end Sys2Proof.Machine
end

