-- ==== Sys2Proof/Machine/Step.lean ====
section
/-! DEFINITION. One step of the fetch-decode-dispatch cycle (40_execution_cycle.md R140 to R154). -/

namespace Sys2Proof.Machine

/-- Decode and dispatch of a fetched Word: `Invalid(op)` is fatal, an instruction has its meaning (R143 to R145). -/
def execWord (w : Word) (s : State) : Host.Outcome State Fault Refusal :=
  match decode w with
  | .invalid _ => .next (s.raiseFatal .invalidOpcode)
  | .instr i => exec i s

/-- The step (R154). From a terminal state no step is taken and nothing changes (R38, R153; notes/assumptions/2.md). -/
def step (s : State) : Host.Outcome State Fault Refusal :=
  match s.fsm with
  | .halted => .next s
  | .failed _ => .next s
  | .running =>
    match s.fetch with
    | .error r => .next (s.raiseFatal r)
    | .ok w => execWord w s

/-- The state whose next step fetches the given instruction word: the FSM is Running and segment 0 holds the word at `PC`,
grown to reach it. It stands for a program loaded from outside (notes/assumptions/13.md). No segment can hold index 2^32 - 1
(20_memory.md R63), so there the word goes to index 0 and the PC with it. -/
def State.withFetchWord (s : State) (nbits w : Nat) : State :=
  let i : Word := if s.pc = 0xFFFFFFFF then 0 else s.pc
  { s with pc := i, fsm := .running, mem := s.mem.plantWord i (BitVec.ofNat 32 (w % 2 ^ nbits)) }

end Sys2Proof.Machine
end

