-- ==== Sys2Proof/Machine/Assembler.lean ====
section
/-! DEFINITION. The written form of the assembler's lines (30_encoding.md R124): "one instruction per line, operands separated by
commas, registers written `r0`..`r7`, immediates in decimal or `0x` hexadecimal". What R124 leaves open of blanks, letter
case and leading zeros is notes/assumptions/19.md. No machine behaviour depends on it (92_eei_decisions.md D20). -/

namespace Sys2Proof

def isBlank (c : Char) : Bool := c == ' ' || c == '\t'

/-- A text without the blanks at its two ends. -/
def trimBlanks (t : List Char) : List Char := ((t.dropWhile isBlank).reverse.dropWhile isBlank).reverse

/-- The pieces of a text between the commas. -/
def splitCommas : List Char → List (List Char)
  | [] => [[]]
  | c :: cs =>
    match splitCommas cs with
    | [] => [[c]]
    | w :: ws => if c = ',' then [] :: w :: ws else (c :: w) :: ws

/-- The value of a digit in a base of at most 16. -/
def digitOf (base : Nat) (c : Char) : Option Nat :=
  let n := c.toNat
  let v := if 48 ≤ n ∧ n ≤ 57 then n - 48 else if 97 ≤ n ∧ n ≤ 102 then n - 87 else if 65 ≤ n ∧ n ≤ 70 then n - 55 else base
  if v < base then some v else none

/-- The number a text of digits stands for, added to the number read so far. -/
def digitsFrom (base acc : Nat) : List Char → Option Nat
  | [] => some acc
  | c :: cs =>
    match digitOf base c with
    | none => none
    | some d => digitsFrom base (acc * base + d) cs

/-- A decimal number of at least one digit. -/
def decimal : List Char → Option Nat
  | [] => none
  | c :: cs => digitsFrom 10 0 (c :: cs)

/-- An operand of the given kind (R124); its range is checked by `AsmLine.wellFormed`. -/
def parseOperand (k : AsmKind) (t : List Char) : Option Nat :=
  match k, t with
  | .reg, 'r' :: ds => decimal ds
  | .reg, _ => none
  | _, '0' :: 'x' :: d :: ds => digitsFrom 16 0 (d :: ds)
  | _, ds => decimal ds

def parseOperands : List AsmKind → List (List Char) → Option (List Nat)
  | [], [] => some []
  | k :: ks, t :: ts =>
    match parseOperand k (trimBlanks t), parseOperands ks ts with
    | some n, some ns => some (n :: ns)
    | _, _ => none
  | _, _ => none

/-- The head word of a line (R124). -/
def parseHead : List Char → Option AsmOp
  | ['c', 'm', 'o', 'v'] => some .cmov
  | ['s', 'l', 'o', 'a', 'd'] => some .sload
  | ['s', 's', 't', 'o', 'r', 'e'] => some .sstore
  | ['a', 'd', 'd'] => some .add
  | ['m', 'u', 'l'] => some .mul
  | ['d', 'i', 'v'] => some .div
  | ['n', 'a', 'n', 'd'] => some .nand
  | ['h', 'a', 'l', 't'] => some .halt
  | ['m', 'a', 'p'] => some .map
  | ['u', 'n', 'm', 'a', 'p'] => some .unmap
  | ['o', 'u', 't'] => some .out
  | ['i', 'n'] => some .input
  | ['l', 'o', 'a', 'd', 'p', 'r', 'o', 'g'] => some .loadprog
  | ['l', 'i'] => some .li
  | ['.', 'w', 'o', 'r', 'd'] => some .word
  | _ => none

/-- A line of assembly text (R124). -/
def parseLine (text : List Char) : Option AsmLine :=
  let t := trimBlanks text
  let rest := trimBlanks (t.dropWhile (fun c => !isBlank c))
  match parseHead (t.takeWhile (fun c => !isBlank c)) with
  | none => none
  | some op =>
    match parseOperands op.kinds (if rest.isEmpty then [] else splitCommas rest) with
    | none => none
    | some ns => some ⟨op, ns⟩

/-- The Word a line of text assembles to, or `none` where the assembler refuses it (R124). -/
def assembleText (text : List Char) : Option Word :=
  match parseLine text with
  | none => none
  | some l => assemble l

end Sys2Proof
end

