-- ==== Sys2Proof/Safety.lean ====
section
/-! DEFINITION. The terms claims about the VM core are stated in: what a step leaves unchanged, what a failed step looks like,
and the invariant of the machine's states. -/

namespace Sys2Proof.Machine

/-! ## What is unchanged between two states -/

/-- Every register but `d` reads as before. -/
def State.SameRegsBut (s : State) (d : RegId) (t : State) : Prop := ∀ r, r ≠ d → t.readReg r = s.readReg r

/-- Every register reads as before. -/
def State.SameRegs (s t : State) : Prop := ∀ r, t.readReg r = s.readReg r

/-- The whole store is unchanged: every Word at every address reads as before, and so does every length and the free stack. -/
def State.SameStore (s t : State) : Prop := t.mem = s.mem ∧ ∀ h i, t.mem.segRead h i = s.mem.segRead h i

/-- Both byte channels are unchanged. -/
def State.SameChannels (s t : State) : Prop := t.inp = s.inp ∧ t.eofAtEnd = s.eofAtEnd ∧ t.out = s.out

/-- The FSM stays in its state without waiting, and the parameters are unchanged. -/
def State.SameControl (s t : State) : Prop := t.fsm = s.fsm ∧ t.params = s.params ∧ t.inWait = false

/-- No handle names a live segment: everything is released (20_memory.md R73). -/
def Memory.Released (m : Memory) : Prop := ∀ h, m.liveSeg h = none

/-- What a fatal error leaves (60_exceptions.md R272 to R274): Failed with its reason, the store released, and every register,
the PC, the channels and the parameters as before the step. -/
def State.FailsWith (s : State) (r : FailReason) (t : State) : Prop :=
  t.fsm = .failed r ∧ t.inWait = false ∧ t.mem.Released ∧ t.pc = s.pc ∧ s.SameRegs t ∧ s.SameChannels t ∧
    t.params = s.params

/-! ## The invariant -/

/-- The segment store's invariants (10_state.md R45 (a), (d)) and its canonical form. R45 (e) is `State.FitsCapacity`; what of it
`SegInstall` keeps is `Memory.FitsInParts`, and that is in `State.Inv` (notes/assumptions/21.md). -/
structure Memory.StoreInv (m : Memory) (p : Params) : Prop where
  /-- R45 (a): a handle is on the free stack exactly where its slot is Free. -/
  freeIff : ∀ h : Word, h ∈ m.freeStack ↔ m.table[h.toNat]? = some .free
  /-- R45 (a): no handle is on the free stack twice. -/
  nodup : m.freeStack.Nodup
  /-- R45 (d): at most `MaxHandles` slots. -/
  slots : m.table.length ≤ p.maxHandles
  /-- Every live segment is in canonical form (notes/assumptions/6.md). -/
  canonical : m.wf = true

/-- The length of the segment a handle names, 0 where it names none. -/
def Memory.lenOr0 (m : Memory) (h : Word) : Nat :=
  match m.segLen h with
  | .ok n => n.toNat
  | .error _ => 0

/-- The live Words of all segments but segment 0. -/
def Memory.wordsOutsideZero (m : Memory) : Nat := (m.table.tail.map Slot.words).sum

/-- R45 (e), the live Words within `MemCapacity`, for segment 0 and for the segments beside it, each by itself. `SegInstall` as
R70 writes it keeps this much of (e) and no more, since the duplicate it makes is not checked (DEDUCED;
notes/assumptions/21.md). -/
abbrev Memory.FitsInParts (m : Memory) (p : Params) : Prop :=
  m.wordsOutsideZero ≤ p.memCapacity ∧ m.lenOr0 0 ≤ p.memCapacity

/-- The FSM is about to execute an Input. -/
def State.AtInput (s : State) : Prop := ∃ w c, s.fetch = .ok w ∧ decode w = .instr (.input c)

/-- The invariant every step keeps: R45 (a), (b), (d), as much of (e) as an install keeps, the release at the end of a run (R73,
R274), and the meaning of INWAIT (R40). -/
structure State.Inv (s : State) : Prop where
  store : s.mem.StoreInv s.params
  /-- R45 (e), for segment 0 and for the other segments each by itself (notes/assumptions/21.md). -/
  capacity : s.mem.FitsInParts s.params
  /-- R45 (b): slot 0 is live while Running. -/
  segmentZero : s.fsm = .running → ∃ g, s.mem.liveSeg 0#32 = some g
  /-- R73, R274: nothing is live in a terminal state. -/
  released : s.fsm ≠ .running → s.mem.Released
  /-- R40: INWAIT is 1 only while Running at an Input that has no response. -/
  waiting : s.inWait = true → s.fsm = .running ∧ s.AtInput ∧ s.receive = none

/-- R45 (e): the live segments fit the capacity. -/
abbrev State.FitsCapacity (s : State) : Prop := s.mem.liveWords ≤ s.params.memCapacity

/-- The live Words after an install of `h`: segment 0's are gone and as many as `h` has come in their place (R70). -/
def Memory.wordsAfterInstall (m : Memory) (h : Word) : Nat := m.liveWords - m.lenOr0 0 + m.lenOr0 h

/-! ## Which fatal error a step reports -/

/-- The fatal error of an access at `(h, i)`: "handle liveness before offset range" (60_exceptions.md R275). -/
def Memory.accessFatal (m : Memory) (h i : Word) : Option FailReason :=
  match m.liveSeg h with
  | none => some .invalidHandle
  | some g => if g.len ≤ i then some .offsetOutOfRange else none

/-- The first check of an instruction that fails, in the order of R275 and the causes of R271. -/
def firstFatal (i : Instr) (s : State) : Option FailReason :=
  match i with
  | .segLoad _ b c => s.mem.accessFatal (s.readReg b) (s.readReg c)
  | .segStore a b _ => s.mem.accessFatal (s.readReg a) (s.readReg b)
  | .divide _ _ c => if s.readReg c = 0 then some .divideByZero else none
  | .mapSegment _ c =>
    if s.params.memCapacity < s.mem.liveWords + (s.readReg c).toNat then some .allocationFailed
    else if s.mem.freeStack = [] ∧ s.mem.table.length = s.params.maxHandles then some .allocationFailed
    else none
  | .unmapSegment c =>
    if s.readReg c = 0 then some .freeSegmentZero
    else if s.mem.liveSeg (s.readReg c) = none then some .invalidHandle else none
  | .loadProgram b _ => if s.readReg b ≠ 0 ∧ s.mem.liveSeg (s.readReg b) = none then some .invalidHandle else none
  | .output c => if s.params.outputRangePolicy = .fatal ∧ 255 < s.readReg c then some .outputOutOfRange else none
  | .conditionalMove _ _ _ | .add _ _ _ | .multiply _ _ _ | .nand _ _ _ | .halt | .input _ | .loadImmediate _ _ => none

/-- The first check of a whole step that fails: fetch range, then opcode, then the instruction's own (R275). -/
def State.stepFatal (s : State) : Option FailReason :=
  match s.mem.segRead 0 s.pc with
  | .error .offsetOutOfRange => some .fetchOutOfRange
  | .error r => some r
  | .ok w =>
    match decode w with
    | .invalid _ => some .invalidOpcode
    | .instr i => firstFatal i s

/-! ## Runs -/

/-- The state after `k` steps is `t`. -/
def State.RunsTo (s : State) (k : Nat) (t : State) : Prop := Host.Core.run Sys2Proof.core k s = .next t

end Sys2Proof.Machine
end

