-- ==== Sys2Proof/Certificates/Slice0/Obligations.lean ====
section
/-! DEFINITION. The statements for the provers, in the order of OBLIGATIONS.json. -/

open Sys2Proof Sys2Proof.Machine

/-! ## Encoding and decoding -/

/-- Words of 95_test_vectors.md, part 2 of which the spec derives from its rules, decode to the instructions they stand for
(V1, V2, V21, V23, V24, V25, V29, V74, V75, V99, and P1 index 4). -/
def Obligations.DecodeSampleWords : Prop :=
  decode 0xDA000064 = .instr (.loadImmediate 5 100) ∧ decode 0x30000053 = .instr (.add 1 2 3) ∧
    decode 0x0FFFFE00 = .instr (.conditionalMove 0 0 0) ∧ decode 0x7FFFFFFF = .instr .halt ∧
    decode 0x8000000D = .instr (.mapSegment 1 5) ∧ decode 0xC000000A = .instr (.loadProgram 1 2) ∧
    decode 0xEFFFFFFF = .invalid 14 ∧ decode 0x2000013D = .instr (.segStore 4 7 5) ∧
    decode 0x10000027 = .instr (.segLoad 0 4 7) ∧ decode 0xA0000003 = .instr (.output 3) ∧
    decode 0xB0000001 = .instr (.input 1)

/-- With the model's encoder for R124's canonical words: decoding the canonical encoding of any instruction gives it back,
whatever its operands (R112, R113, R124). -/
def Obligations.DecodeEncodeRoundTrip : Prop :=
  ∀ i : Instr, decode (encode i) = .instr i

/-- The other direction: a word that decodes to `i` agrees with the canonical encoding of `i` on every bit its decoding
depends on, and the canonical encoding has 0 on the rest (R116, R122, R124). -/
def Obligations.EncodeKeepsSignificantBits : Prop :=
  ∀ (w : Word) (i : Instr), decode w = .instr i → encode i = w &&& significantBits i

/-- R110: the Standard format's fields, for every opcode but 13. -/
def Obligations.StandardFormatFieldPositions : Prop :=
  ∀ w : Word, w.toNat / 2 ^ 28 ≠ 13 →
    decode w = standardInstr (BitVec.ofNat 4 (w.toNat / 2 ^ 28)) (Fin.ofNat 8 (w.toNat / 2 ^ 6))
      (Fin.ofNat 8 (w.toNat / 2 ^ 3)) (Fin.ofNat 8 w.toNat)

/-- R111: the Immediate format's fields, and every one of its bits is significant. -/
def Obligations.ImmediateFormatEveryBitSignificant : Prop :=
  ∀ w : Word, w.toNat / 2 ^ 28 = 13 →
    decode w = .instr (.loadImmediate (Fin.ofNat 8 (w.toNat / 2 ^ 25)) (BitVec.ofNat 25 w.toNat)) ∧
      ∀ w' : Word, decode w' = decode w → w' = w

/-- R116, which the spec derives from R112: Standard-format words that differ only in bits 27:9 decode to the same
instruction and execute identically. -/
def Obligations.IgnoredBitsDoNotMatter : Prop :=
  ∀ w w' : Word, w.toNat / 2 ^ 28 ≠ 13 → w'.toNat / 2 ^ 28 = w.toNat / 2 ^ 28 → w'.toNat % 2 ^ 9 = w.toNat % 2 ^ 9 →
    decode w' = decode w ∧ ∀ s : State, execWord w' s = execWord w s

/-- R121, which the spec derives from R112 and R116: opcodes 14 and 15 end the run in Failed(InvalidOpcode) whatever their
other bits; every other word is a valid instruction of its opcode. -/
def Obligations.InvalidOpcodesFailOthersDecode : Prop :=
  ∀ w : Word,
    (14 ≤ w.toNat / 2 ^ 28 → ∀ s : State, ∃ t, execWord w s = .next t ∧ s.FailsWith .invalidOpcode t) ∧
    (w.toNat / 2 ^ 28 < 14 → ∃ i, decode w = .instr i ∧ (opcode i).toNat = w.toNat / 2 ^ 28)

/-- The canonical words of R124 (the spec's own syntax, D20) as its table computes them, a line for every instruction, and the
refusal of every line with an operand missing or left over, a register of 8 or more, an immediate above 0x01FFFFFF or a data
Word of 2^32 or more. -/
def Obligations.AssemblerGivesCanonicalWords : Prop :=
  (∀ l : AsmLine, assemble l ≠ none ↔
    match l.op, l.args with
    | .cmov, [a, b, c] | .sload, [a, b, c] | .sstore, [a, b, c] | .add, [a, b, c] | .mul, [a, b, c] | .div, [a, b, c]
    | .nand, [a, b, c] => a < 8 ∧ b < 8 ∧ c < 8
    | .halt, [] => True
    | .map, [b, c] | .loadprog, [b, c] => b < 8 ∧ c < 8
    | .unmap, [c] | .out, [c] | .input, [c] => c < 8
    | .li, [a, v] => a < 8 ∧ v ≤ 0x01FFFFFF
    | .word, [v] => v < 2 ^ 32
    | _, _ => False) ∧
  (∀ l : AsmLine, assemble l = none ↔ l.wellFormed = false) ∧
  (∀ i : Instr, assemble (toLine i) = some (encode i)) ∧
  (∀ v, v < 2 ^ 32 → assemble ⟨.word, [v]⟩ = some (BitVec.ofNat 32 v)) ∧
  (∀ i : Instr, (encode i).toNat =
    match i with
    | .conditionalMove a b c => 0x00000000 + a.val * 64 + b.val * 8 + c.val
    | .segLoad a b c => 0x10000000 + a.val * 64 + b.val * 8 + c.val
    | .segStore a b c => 0x20000000 + a.val * 64 + b.val * 8 + c.val
    | .add a b c => 0x30000000 + a.val * 64 + b.val * 8 + c.val
    | .multiply a b c => 0x40000000 + a.val * 64 + b.val * 8 + c.val
    | .divide a b c => 0x50000000 + a.val * 64 + b.val * 8 + c.val
    | .nand a b c => 0x60000000 + a.val * 64 + b.val * 8 + c.val
    | .halt => 0x70000000
    | .mapSegment b c => 0x80000000 + b.val * 8 + c.val
    | .unmapSegment c => 0x90000000 + c.val
    | .output c => 0xA0000000 + c.val
    | .input c => 0xB0000000 + c.val
    | .loadProgram b c => 0xC0000000 + b.val * 8 + c.val
    | .loadImmediate a imm => 0xD0000000 + a.val * 2 ^ 25 + imm.toNat)

/-! ## The BitField codec -/

/-- R104, with R102's range written out and the read-back by R100: `setUnsigned` fails with Overflow exactly where the value does
not fit; else the field reads back the value and every bit outside it is unchanged. Width 0 is among the calls by the model's
DESIGN CHOICE (notes/assumptions/18.md): R100's condition admits it and R102 gives it the value 0 alone, while U5 refuses it. -/
def Obligations.SetUnsignedReplacesFieldOnly : Prop :=
  ∀ (word : Container) (width lsb : Nat) (value : Int), width ≤ 64 → width + lsb ≤ 64 →
    (¬(0 ≤ value ∧ value < 2 ^ width) → setUnsigned word width lsb value = .error .overflow) ∧
    (0 ≤ value ∧ value < 2 ^ width → ∃ w', setUnsigned word width lsb value = .ok w' ∧
      getUnsigned w' width lsb = .ok value.toNat ∧
      ∀ k, k < lsb ∨ lsb + width ≤ k → w'.getLsbD k = word.getLsbD k)

/-- R105, with R103's range written out and the read-back by R100 and R101: `setSigned` fails with Overflow exactly where the
value does not fit; else the field holds the low bits of the two's complement, reads back signed as the value, and every bit
outside it is unchanged. Width 0, which admits only the value 0 and reads back as 0 (for R101 the spec derives that from R106),
is among the calls by the model's DESIGN CHOICE (notes/assumptions/18.md): R100's condition and R103 admit it, U5 refuses it. -/
def Obligations.SetSignedReplacesFieldOnly : Prop :=
  ∀ (word : Container) (width lsb : Nat) (value : Int), width ≤ 64 → width + lsb ≤ 64 →
    (¬((width = 0 ∧ value = 0) ∨ (1 ≤ width ∧ -(2 ^ (width - 1)) ≤ value ∧ value < 2 ^ (width - 1))) →
      setSigned word width lsb value = .error .overflow ∧ fitsSigned value width = false) ∧
    ((width = 0 ∧ value = 0) ∨ (1 ≤ width ∧ -(2 ^ (width - 1)) ≤ value ∧ value < 2 ^ (width - 1)) →
      fitsSigned value width = true ∧ ∃ w', setSigned word width lsb value = .ok w' ∧
        getUnsigned w' width lsb = .ok (value % 2 ^ width).toNat ∧ getSigned w' width lsb = .ok value ∧
        ∀ k, k < lsb ∨ lsb + width ≤ k → w'.getLsbD k = word.getLsbD k)

/-- R100, and R101 with its width 0 that the spec derives from R106: within the container `getUnsigned` is the slice as a
number, and `getSigned` is the slice in two's complement. Width 0 is among the calls by the model's DESIGN CHOICE
(notes/assumptions/18.md): U5 refuses it. -/
def Obligations.GetFieldsAreSlices : Prop :=
  ∀ (word : Container) (width lsb : Nat), width ≤ 64 → width + lsb ≤ 64 →
    getUnsigned word width lsb = .ok (word.toNat / 2 ^ lsb % 2 ^ width) ∧
    getSigned word width lsb = .ok (word.extractLsb' lsb width).toInt

/-! ## The program image and reset -/

/-- The formula of R74: the Word of four image bytes, and the Loader's four codec inserts (R301) give it without Overflow.
-/
def Obligations.LoaderPacksBigEndian : Prop :=
  ∀ b0 b1 b2 b3 : Byte,
    (packWord b0 b1 b2 b3).toNat = b0.toNat * 2 ^ 24 + b1.toNat * 2 ^ 16 + b2.toNat * 2 ^ 8 + b3.toNat ∧
    loaderWord b0 b1 b2 b3 = .ok ((packWord b0 b1 b2 b3).setWidth 64)

/-- R301, R302: the image gives floor(L / 4) Words, Word k from the bytes 4k to 4k+3; trailing bytes are dropped. -/
def Obligations.ImageFramingByFours : Prop :=
  ∀ image : List Byte, (frameImage image).length = image.length / 4 ∧
    ∀ k, k < image.length / 4 →
      (frameImage image)[k]? = some (packWord (image.getD (4 * k) 0) (image.getD (4 * k + 1) 0)
        (image.getD (4 * k + 2) 0) (image.getD (4 * k + 3) 0))

/-- R303: every piece of state after reset with an image the store can hold. -/
def Obligations.BootLoadsImage : Prop :=
  ∀ (p : Params) (image inp : List Byte) (eofAtEnd : Bool),
    image.length / 4 ≤ 2 ^ 32 - 1 → image.length / 4 ≤ p.memCapacity →
    ∀ s, s = State.boot p image inp eofAtEnd →
      s.fsm = .running ∧ s.pc = 0 ∧ (∀ r, s.readReg r = 0) ∧ s.mem.table.length = 1 ∧ s.mem.freeStack = [] ∧
      s.mem.segLen 0 = .ok (BitVec.ofNat 32 (image.length / 4)) ∧
      (∀ k, k < image.length / 4 → s.mem.segRead 0 (BitVec.ofNat 32 k) = .ok ((frameImage image).getD k 0)) ∧
      s.out = [] ∧ s.runstate = 0 ∧ s.exitStatus = none

/-- R304, the spec's decision (D7, D8), with notes/assumptions/2.md for "no step is taken": an image that is too long or
does not fit ends reset in Failed(AllocationFailed). -/
def Obligations.BootFailsWithoutRoom : Prop :=
  ∀ (p : Params) (image inp : List Byte) (eofAtEnd : Bool),
    2 ^ 32 - 1 < image.length / 4 ∨ p.memCapacity < image.length / 4 →
    ∀ s, s = State.boot p image inp eofAtEnd →
      s.fsm = .failed .allocationFailed ∧ (∃ v, s.exitStatus = some v ∧ v ≠ 0) ∧ step s = .next s

/-- The model's choice of the one reset state among those of R303 (notes/assumptions/4.md, 7.md, 10.md, 13.md). -/
def Obligations.ResetIsBootOfEmptyImage : Prop :=
  State.reset = State.boot ⟨none, .fatal⟩ [] [] false

/-- The invariant of the model (`State.Inv`) holds after the model's reset (notes/assumptions/13.md). -/
def Obligations.ResetMeetsInvariant : Prop := State.reset.Inv

/-- The model's reset (notes/assumptions/4.md, 7.md, 10.md, 14.md): whatever the image, also where reset fails, the state
keeps the parameters and the input it was given, with no hold, the invariant holds, and R45 (e) holds whole. -/
def Obligations.BootMeetsInvariant : Prop :=
  ∀ (p : Params) (image inp : List Byte) (eofAtEnd : Bool) (s : State), s = State.boot p image inp eofAtEnd →
    s.Inv ∧ s.FitsCapacity ∧ s.params = p ∧ s.inp = inp ∧ s.eofAtEnd = eofAtEnd ∧ s.inWait = false

/-- R305, which the spec derives from R302, R303 and R142: an image of fewer than 4 bytes starts Running and fails at its
first fetch. -/
def Obligations.ShortImageFailsAtFirstFetch : Prop :=
  ∀ (p : Params) (image inp : List Byte) (eofAtEnd : Bool), image.length < 4 →
    ∀ s, s = State.boot p image inp eofAtEnd →
      s.fsm = .running ∧ s.mem.segLen 0 = .ok 0 ∧ ∃ t, step s = .next t ∧ s.FailsWith .fetchOutOfRange t

/-! ## The step and the FSM -/

/-- The model's `step` (R143, R144): while Running, a step at a word that decodes to an instruction is that instruction's
meaning, and nothing else. -/
def Obligations.StepRunsDecodedInstruction : Prop :=
  ∀ (s : State) (w : Word) (i : Instr), s.fsm = .running → s.mem.segRead 0 s.pc = .ok w → decode w = .instr i →
    step s = exec i s

/-- R145: dispatching an invalid opcode fails the run with no other effect. -/
def Obligations.InvalidOpcodeStepFails : Prop :=
  ∀ (s : State) (w : Word), s.fsm = .running → s.mem.segRead 0 s.pc = .ok w → 14 ≤ w.toNat / 2 ^ 28 →
    ∃ t, step s = .next t ∧ s.FailsWith .invalidOpcode t

/-- R142, the spec's decision (D13): a fetch at or beyond the length of segment 0 fails the run. -/
def Obligations.FetchBeyondSegmentZeroFails : Prop :=
  ∀ (s : State) (n : Word), s.fsm = .running → s.mem.segLen 0 = .ok n → n ≤ s.pc →
    ∃ t, step s = .next t ∧ s.FailsWith .fetchOutOfRange t

/-- The model's form of R38's "a terminal state is never left" (notes/assumptions/2.md): any number of steps leaves a
terminal state as it is. -/
def Obligations.TerminalStatesNeverLeft : Prop :=
  ∀ s : State, s.fsm ≠ .running → ∀ k, s.RunsTo k s

/-- No instruction is refused and no condition stops the model: every state has a next state (R117, R146; the model's
choices of notes/assumptions/1.md, 2.md, 3.md and 15.md). -/
def Obligations.EveryStateSteps : Prop :=
  ∀ s : State, ∃ t, step s = .next t

/-- Every step from every state keeps the model's invariant (notes/assumptions/6.md, 21.md): R45 (a), (b), (d), (e) for segment 0
and for the other segments each by itself, the canonical form of the store, its release in a terminal state, and the meaning of
INWAIT. -/
def Obligations.StepKeepsInvariant : Prop :=
  ∀ s t : State, s.Inv → step s = .next t → t.Inv

/-- A response delivered by the host between steps keeps the invariant (the model's delivery, notes/assumptions/5.md). -/
def Obligations.HostDeliveryKeepsInvariant : Prop :=
  ∀ (s : State) (x : InResponse), s.Inv → (s.hostDeliver x).Inv

/-- R273, the spec's decision (D11), and R274: a step that ends in Failed has no effect other than that transition, whatever
the instruction. -/
def Obligations.FailingStepIsPrecise : Prop :=
  ∀ (s t : State) (r : FailReason), s.fsm = .running → step s = .next t → t.fsm = .failed r →
    s.FailsWith r t ∧ t.runstate.toNat = 2 + 256 * (
      match r with
        | .invalidOpcode => 1 | .divideByZero => 2 | .invalidHandle => 3 | .offsetOutOfRange => 4
        | .fetchOutOfRange => 5 | .freeSegmentZero => 6 | .outputOutOfRange => 7 | .allocationFailed => 8) ∧
      t.exitStatus = some (Config.failExitStatus r.code) ∧ Config.failExitStatus r.code ≠ 0

/-- R275, the spec's decision (D14): the step reports the first check that fails in R275's order, and fails only where a
check does. -/
def Obligations.FirstFatalCheckIsReported : Prop :=
  ∀ s : State, s.fsm = .running → s.mem.StoreInv s.params →
    ∃ t, step s = .next t ∧ (∀ r, s.stepFatal = some r → s.FailsWith r t) ∧
      (s.stepFatal = none → ∀ r, t.fsm ≠ .failed r)

/-- R150: the PC after each outcome of a step that is not a hold. -/
def Obligations.PcUpdateAfterDispatch : Prop :=
  ∀ (s t : State) (w : Word), s.fsm = .running → s.mem.segRead 0 s.pc = .ok w → step s = .next t → t.inWait = false →
    t.pc = if t.fsm = .running then
        (match decode w with | .instr (.loadProgram _ c) => s.readReg c | _ => s.pc + 1)
      else s.pc

/-- R31's table, which the spec derives from the instructions' rules: while Running, a register that changes is the one R31's
table names for the instruction, under the table's condition: ConditionalMove only where `R[C]` is not 0, SegLoad, Divide and
MapSegment only on success, Input only with a response. -/
def Obligations.RegisterWriteTable : Prop :=
  ∀ (i : Instr) (s t : State), s.fsm = .running → exec i s = .next t → ∀ r, t.readReg r ≠ s.readReg r →
    match i with
    | .conditionalMove a _ c => r = a ∧ s.readReg c ≠ 0
    | .segLoad a _ _ | .divide a _ _ => r = a ∧ t.fsm = .running
    | .add a _ _ | .multiply a _ _ | .nand a _ _ | .loadImmediate a _ => r = a
    | .mapSegment b _ => r = b ∧ t.fsm = .running
    | .input c => r = c ∧ s.receive ≠ none
    | .segStore _ _ _ | .halt | .unmapSegment _ | .output _ | .loadProgram _ _ => False

/-- R72: only LoadProgram's install changes the length of an existing slot, and only slot 0's; handle 0 stays live while the
machine is Running. -/
def Obligations.OnlyInstallChangesLength : Prop :=
  ∀ (i : Instr) (s t : State), s.mem.StoreInv s.params → (∃ n, s.mem.segLen 0 = .ok n) → exec i s = .next t →
    (∀ h n n', s.mem.segLen h = .ok n → t.mem.segLen h = .ok n' → n' ≠ n →
      h = 0 ∧ ∃ b c, i = .loadProgram b c ∧ s.readReg b ≠ 0) ∧
    (t.fsm = .running → ∃ n, t.mem.segLen 0 = .ok n)

/-- R45 (e) against R70 (notes/assumptions/21.md): every instruction keeps the live Words within MemCapacity, an install where
the segment's Words fit in the place of segment 0's; R70 checks no capacity, so an install of a longer segment can exceed
it, but never to more than twice MemCapacity; and a MapSegment that completes leaves them within it from any state. -/
def Obligations.CapacityKeptExceptByInstall : Prop :=
  (∀ (i : Instr) (s t : State), s.mem.StoreInv s.params → s.FitsCapacity →
    (∀ b c, i = .loadProgram b c → s.readReg b = 0 ∨ s.mem.wordsAfterInstall (s.readReg b) ≤ s.params.memCapacity) →
    exec i s = .next t → t.FitsCapacity) ∧
  (∃ s t : State, s.Inv ∧ s.FitsCapacity ∧ s.fsm = .running ∧ step s = .next t ∧ t.fsm = .running ∧ ¬t.FitsCapacity) ∧
  (∀ s t : State, s.Inv → step s = .next t → t.mem.liveWords ≤ 2 * t.params.memCapacity) ∧
  (∀ (b c : RegId) (s t : State), s.mem.StoreInv s.params → exec (.mapSegment b c) s = .next t → t.FitsCapacity)

/-- R251, the spec's decision (D18): a successful Output appends exactly one byte to OUT, no other step changes OUT, and no
run withdraws a byte. -/
def Obligations.OutputHistoryOnlyGrows : Prop :=
  (∀ (i : Instr) (s t : State), s.fsm = .running → exec i s = .next t →
    (∀ c, i = .output c → t.fsm = .running → ∃ b, t.out = s.out ++ [b]) ∧
    ((∀ c, i ≠ .output c) ∨ t.fsm ≠ .running → t.out = s.out)) ∧
  (∀ (k : Nat) (s t : State), s.RunsTo k t → s.out <+: t.out)

/-- R257, with IN held in the state (notes/assumptions/4.md): once the input is exhausted and at its end, every later Input
receives EOF. -/
def Obligations.EofRepeatsForever : Prop :=
  ∀ (k : Nat) (s t : State), s.inp = [] → s.eofAtEnd = true → s.RunsTo k t → t.receive = some (.eof, t)

/-- R147, R256 in the model's form of a hold (notes/assumptions/3.md, 5.md): while IN has no response an Input changes
INWAIT alone, however often the machine is stepped; a delivered response clears INWAIT and the Input then executes. -/
def Obligations.HoldLastsUntilDelivery : Prop :=
  ∀ (s : State) (w : Word) (c : RegId), s.fsm = .running → s.mem.segRead 0 s.pc = .ok w → decode w = .instr (.input c) →
    s.inp = [] → s.eofAtEnd = false →
    (∀ k, s.RunsTo (k + 1) { s with inWait := true }) ∧ { s with inWait := true }.runstate = 4 ∧
    ∀ x : InResponse, ∃ t, step ({ s with inWait := true }.hostDeliver x) = .next t ∧ t.readReg c = x.value ∧
      s.SameRegsBut c t ∧ t.pc = s.pc + 1 ∧ t.runstate = 0 ∧ s.SameStore t

/-- R155, which the spec derives from R150 and R236: a LoadProgram that jumps to its own index runs forever. -/
def Obligations.SelfJumpNeverTerminates : Prop :=
  ∀ (s : State) (w : Word) (b c : RegId), s.fsm = .running → s.mem.segRead 0 s.pc = .ok w →
    decode w = .instr (.loadProgram b c) → s.readReg b = 0 → s.readReg c = s.pc →
    ∀ k, ∃ t, s.RunsTo k t ∧ t.fsm = .running ∧ t.pc = s.pc

/-! ## The segment store -/

/-- R66: a write through a handle that is not live or beyond the length fails as the read does; every other write succeeds,
the Word then reads back and nothing else changes. -/
def Obligations.StoreThenLoad : Prop :=
  ∀ (m : Memory) (h i v : Word), m.wf = true →
    (m.liveSeg h = none → m.segWrite h i v = .error .invalidHandle ∧ m.segRead h i = .error .invalidHandle) ∧
    (∀ n, m.segLen h = .ok n → n ≤ i →
      m.segWrite h i v = .error .offsetOutOfRange ∧ m.segRead h i = .error .offsetOutOfRange) ∧
    (∀ n, m.segLen h = .ok n → i < n → ∃ m', m.segWrite h i v = .ok m' ∧ m'.segRead h i = .ok v ∧
      (∀ h' i', ¬(h' = h ∧ i' = i) → m'.segRead h' i' = m.segRead h' i') ∧
      (∀ h', m'.segLen h' = m.segLen h') ∧ m'.freeStack = m.freeStack ∧ m'.table.length = m.table.length)

/-- R64, with the capacity checks that are the spec's own (D6, D7, D23): allocation succeeds where the capacities allow it,
reuses the most recently freed handle or appends a slot, gives a zero-filled segment of the length, and leaves every other
segment alone; elsewhere it is AllocationFailed. -/
def Obligations.AllocGivesFreshZeroSegment : Prop :=
  ∀ (p : Params) (len : Word) (m : Memory), m.StoreInv p →
    if p.memCapacity < m.liveWords + len.toNat ∨ (m.freeStack = [] ∧ m.table.length = p.maxHandles) then
      m.segAlloc p len = .error .allocationFailed
    else
      ∃ h m', m.segAlloc p len = .ok (h, m') ∧
        (match m.freeStack with
          | top :: rest => h = top ∧ m'.freeStack = rest ∧ m'.table.length = m.table.length
          | [] => h.toNat = m.table.length ∧ m'.freeStack = [] ∧ m'.table.length = m.table.length + 1) ∧
        m.liveSeg h = none ∧ m'.segLen h = .ok len ∧ (∀ i, i < len → m'.segRead h i = .ok 0) ∧
        (∀ h', h' ≠ h → m'.segLen h' = m.segLen h' ∧ ∀ i, m'.segRead h' i = m.segRead h' i) ∧ m'.StoreInv p

/-- What R68 and R214 say of a handle after it is freed: a freed handle is invalid for every operation, the other segments
are untouched, and the next allocation that succeeds returns that handle with none of its old contents. -/
def Obligations.FreedHandleIsInvalidUntilReused : Prop :=
  ∀ (m m' : Memory) (h : Word), m.segFree h = .ok m' →
    (∀ i v, m'.segRead h i = .error .invalidHandle ∧ m'.segWrite h i v = .error .invalidHandle) ∧
    m'.segFree h = .error .invalidHandle ∧ m'.segInstall h = .error .invalidHandle ∧
    (∀ h', h' ≠ h → m'.segLen h' = m.segLen h' ∧ ∀ i, m'.segRead h' i = m.segRead h' i) ∧
    (∀ (p : Params) (len k : Word) (m'' : Memory), m'.segAlloc p len = .ok (k, m'') →
      k = h ∧ m''.segLen h = .ok len ∧ ∀ i, i < len → m''.segRead h i = .ok 0)

/-- R71, which the spec derives from R70: after an install segment 0 reads as the installed segment, and later writes or a
free of either do not reach the other. -/
def Obligations.InstalledCopyIsIndependent : Prop :=
  ∀ (m m' : Memory) (h : Word), h ≠ 0 → m.segInstall h = .ok m' →
    (∀ i, m'.segRead 0 i = m.segRead h i ∧ m'.segRead h i = m.segRead h i) ∧
    (∀ i v m'', m'.segWrite h i v = .ok m'' → ∀ j, m''.segRead 0 j = m'.segRead 0 j) ∧
    (∀ i v m'', m'.segWrite 0 i v = .ok m'' → ∀ j, m''.segRead h j = m'.segRead h j) ∧
    (∀ m'', m'.segFree h = .ok m'' → ∀ j, m''.segRead 0 j = m'.segRead 0 j)

/-- The canonical form (notes/assumptions/6.md): two canonical segments with the same length and the same reads are one and
the same data. -/
def Obligations.EqualReadsMeanEqualSegments : Prop :=
  ∀ g g' : Segment, g.wf = true → g'.wf = true → g.len = g'.len → (∀ i, g.read i = g'.read i) → g = g'

/-! ## The instructions: results and frames -/

/-- R170: the move takes place where `R[C]` is not 0. -/
def Obligations.ConditionalMoveResult : Prop :=
  ∀ (a b c : RegId) (s : State), ∃ t, exec (.conditionalMove a b c) s = .next t ∧
    t.readReg a = (if s.readReg c ≠ 0 then s.readReg b else s.readReg a) ∧ s.SameRegsBut a t ∧ s.SameStore t ∧
    s.SameChannels t ∧ s.SameControl t ∧ t.pc = s.pc + 1

/-- R174: `R[A]` becomes the sum modulo 2^32. -/
def Obligations.AddResult : Prop :=
  ∀ (a b c : RegId) (s : State), ∃ t, exec (.add a b c) s = .next t ∧
    (t.readReg a).toNat = ((s.readReg b).toNat + (s.readReg c).toNat) % 2 ^ 32 ∧ s.SameRegsBut a t ∧ s.SameStore t ∧
    s.SameChannels t ∧ s.SameControl t ∧ t.pc = s.pc + 1

/-- R178: `R[A]` becomes the product modulo 2^32. -/
def Obligations.MultiplyResult : Prop :=
  ∀ (a b c : RegId) (s : State), ∃ t, exec (.multiply a b c) s = .next t ∧
    (t.readReg a).toNat = ((s.readReg b).toNat * (s.readReg c).toNat) % 2 ^ 32 ∧ s.SameRegsBut a t ∧ s.SameStore t ∧
    s.SameChannels t ∧ s.SameControl t ∧ t.pc = s.pc + 1

/-- R182: with a divisor that is not 0, `R[A]` becomes the unsigned quotient; a divisor of 0 fails the run. -/
def Obligations.DivideResult : Prop :=
  ∀ (a b c : RegId) (s : State),
    (s.readReg c ≠ 0 → ∃ t, exec (.divide a b c) s = .next t ∧
      (t.readReg a).toNat = (s.readReg b).toNat / (s.readReg c).toNat ∧ s.SameRegsBut a t ∧ s.SameStore t ∧
      s.SameChannels t ∧ s.SameControl t ∧ t.pc = s.pc + 1) ∧
    (s.readReg c = 0 → ∃ t, exec (.divide a b c) s = .next t ∧ s.FailsWith .divideByZero t)

/-- R186: `R[A]` becomes the bitwise nand, all 32 bits. -/
def Obligations.NandResult : Prop :=
  ∀ (a b c : RegId) (s : State), ∃ t, exec (.nand a b c) s = .next t ∧
    (∀ k, k < 32 → (t.readReg a).getLsbD k = !((s.readReg b).getLsbD k && (s.readReg c).getLsbD k)) ∧
    s.SameRegsBut a t ∧ s.SameStore t ∧ s.SameChannels t ∧ s.SameControl t ∧ t.pc = s.pc + 1

/-- R190: `R[A]` becomes the immediate, its upper 7 bits 0. -/
def Obligations.LoadImmediateResult : Prop :=
  ∀ (a : RegId) (imm : Imm25) (s : State), ∃ t, exec (.loadImmediate a imm) s = .next t ∧
    (t.readReg a).toNat = imm.toNat ∧ s.SameRegsBut a t ∧ s.SameStore t ∧ s.SameChannels t ∧ s.SameControl t ∧
    t.pc = s.pc + 1

/-- R195, which the spec derives from R174 and R186: `b - c` by nand, add and add of a register holding 1. -/
def Obligations.SubtractionSequence : Prop :=
  ∀ (d b c one : RegId) (s : State), d ≠ b → d ≠ one → s.readReg one = 1 →
    ∃ t u v, exec (.nand d c c) s = .next t ∧ exec (.add d b d) t = .next u ∧ exec (.add d d one) u = .next v ∧
      (v.readReg d).toNat = ((s.readReg b).toNat + 2 ^ 32 - (s.readReg c).toNat) % 2 ^ 32 ∧ s.SameRegsBut d v

/-- R200: with a live handle in `R[B]` and an offset below its length in `R[C]`, `R[A]` becomes the Word there; a handle
that is not live and an offset beyond the end fail the run. -/
def Obligations.SegLoadResult : Prop :=
  ∀ (a b c : RegId) (s : State),
    (∀ n, s.mem.segLen (s.readReg b) = .ok n → s.readReg c < n →
      ∃ t, exec (.segLoad a b c) s = .next t ∧ s.mem.segRead (s.readReg b) (s.readReg c) = .ok (t.readReg a) ∧
        s.SameRegsBut a t ∧ s.SameStore t ∧ s.SameChannels t ∧ s.SameControl t ∧ t.pc = s.pc + 1) ∧
    (∀ n, s.mem.segLen (s.readReg b) = .ok n → n ≤ s.readReg c →
      ∃ t, exec (.segLoad a b c) s = .next t ∧ s.FailsWith .offsetOutOfRange t) ∧
    (s.mem.liveSeg (s.readReg b) = none → ∃ t, exec (.segLoad a b c) s = .next t ∧ s.FailsWith .invalidHandle t)

/-- R204: with a live handle in `R[A]` and an offset below its length in `R[B]`, the Word there becomes `R[C]`, and no other
Word, length, handle or register changes; a handle that is not live and an offset beyond the end fail the run. -/
def Obligations.SegStoreResult : Prop :=
  ∀ (a b c : RegId) (s : State), s.mem.wf = true →
    (∀ n, s.mem.segLen (s.readReg a) = .ok n → s.readReg b < n →
      ∃ t, exec (.segStore a b c) s = .next t ∧ t.mem.segRead (s.readReg a) (s.readReg b) = .ok (s.readReg c) ∧
        (∀ h i, ¬(h = s.readReg a ∧ i = s.readReg b) → t.mem.segRead h i = s.mem.segRead h i) ∧
        (∀ h, t.mem.segLen h = s.mem.segLen h) ∧ t.mem.freeStack = s.mem.freeStack ∧
        t.mem.table.length = s.mem.table.length ∧ s.SameRegs t ∧ s.SameChannels t ∧ s.SameControl t ∧ t.pc = s.pc + 1) ∧
    (∀ n, s.mem.segLen (s.readReg a) = .ok n → n ≤ s.readReg b →
      ∃ t, exec (.segStore a b c) s = .next t ∧ s.FailsWith .offsetOutOfRange t) ∧
    (s.mem.liveSeg (s.readReg a) = none → ∃ t, exec (.segStore a b c) s = .next t ∧ s.FailsWith .invalidHandle t)

/-- R208, R209, R214, with the capacity checks that are the spec's own (D6, D7): where they allow it, `R[B]` becomes the new
handle, never 0 while slot 0 is live, of a zero-filled segment of `R[C]` Words, and every other segment is as before;
elsewhere the run fails. -/
def Obligations.MapSegmentResult : Prop :=
  ∀ (b c : RegId) (s : State), s.mem.StoreInv s.params →
    (s.mem.liveWords + (s.readReg c).toNat ≤ s.params.memCapacity →
      (s.mem.freeStack ≠ [] ∨ s.mem.table.length < s.params.maxHandles) →
      ∃ t, exec (.mapSegment b c) s = .next t ∧
        (match s.mem.freeStack with
          | top :: rest => t.readReg b = top ∧ t.mem.freeStack = rest
          | [] => (t.readReg b).toNat = s.mem.table.length ∧ t.mem.freeStack = []) ∧
        (∀ n, s.mem.segLen 0 = .ok n → t.readReg b ≠ 0) ∧
        t.mem.segLen (t.readReg b) = .ok (s.readReg c) ∧
        (∀ i, i < s.readReg c → t.mem.segRead (t.readReg b) i = .ok 0) ∧
        (∀ h, h ≠ t.readReg b → t.mem.segLen h = s.mem.segLen h ∧ ∀ i, t.mem.segRead h i = s.mem.segRead h i) ∧
        s.SameRegsBut b t ∧ s.SameChannels t ∧ s.SameControl t ∧ t.pc = s.pc + 1) ∧
    (s.params.memCapacity < s.mem.liveWords + (s.readReg c).toNat ∨
        (s.mem.freeStack = [] ∧ s.mem.table.length = s.params.maxHandles) →
      ∃ t, exec (.mapSegment b c) s = .next t ∧ s.FailsWith .allocationFailed t)

/-- R216: with a live handle other than 0 in `R[C]`, its slot is freed and the handle pushed, and every other segment and
every register is as before; handle 0 and a handle that is not live fail the run. -/
def Obligations.UnmapSegmentResult : Prop :=
  ∀ (c : RegId) (s : State),
    (∀ n, s.readReg c ≠ 0 → s.mem.segLen (s.readReg c) = .ok n →
      ∃ t, exec (.unmapSegment c) s = .next t ∧ t.mem.liveSeg (s.readReg c) = none ∧
        t.mem.freeStack = s.readReg c :: s.mem.freeStack ∧ t.mem.table.length = s.mem.table.length ∧
        (∀ h, h ≠ s.readReg c → t.mem.segLen h = s.mem.segLen h ∧ ∀ i, t.mem.segRead h i = s.mem.segRead h i) ∧
        s.SameRegs t ∧ s.SameChannels t ∧ s.SameControl t ∧ t.pc = s.pc + 1) ∧
    (s.readReg c = 0 → ∃ t, exec (.unmapSegment c) s = .next t ∧ s.FailsWith .freeSegmentZero t) ∧
    (s.readReg c ≠ 0 → s.mem.liveSeg (s.readReg c) = none →
      ∃ t, exec (.unmapSegment c) s = .next t ∧ s.FailsWith .invalidHandle t)

/-- R230: Halt ends the run with exit status 0, everything released and the PC not advanced. -/
def Obligations.HaltResult : Prop :=
  ∀ s : State, ∃ t, exec .halt s = .next t ∧ t.fsm = .halted ∧ t.exitStatus = some 0 ∧ t.runstate = 1 ∧
    t.mem.Released ∧ t.pc = s.pc ∧ s.SameRegs t ∧ s.SameChannels t ∧ t.params = s.params ∧ t.inWait = false

/-- R236: with `R[B] = 0` LoadProgram is a jump to exactly `R[C]` and changes nothing else. -/
def Obligations.LoadProgramJumpResult : Prop :=
  ∀ (b c : RegId) (s : State), s.readReg b = 0 → ∃ t, exec (.loadProgram b c) s = .next t ∧ t.pc = s.readReg c ∧
    s.SameRegs t ∧ s.SameStore t ∧ s.SameChannels t ∧ s.SameControl t

/-- R235, and R234's one fatal case by the spec's reading (D12): with a live handle other than 0 in `R[B]`, whatever its length,
segment 0 becomes a copy of that segment, every other segment is as before, and the PC is exactly `R[C]`, whence the next fetch
reads; a handle that is not live fails the run. -/
def Obligations.LoadProgramInstallResult : Prop :=
  ∀ (b c : RegId) (s : State), s.readReg b ≠ 0 →
    (∀ n, s.mem.segLen (s.readReg b) = .ok n →
      ∃ t, exec (.loadProgram b c) s = .next t ∧ t.pc = s.readReg c ∧ t.mem.segLen 0 = .ok n ∧
        (∀ i, t.mem.segRead 0 i = s.mem.segRead (s.readReg b) i) ∧
        (∀ h, h ≠ 0 → t.mem.segLen h = s.mem.segLen h ∧ ∀ i, t.mem.segRead h i = s.mem.segRead h i) ∧
        t.mem.freeStack = s.mem.freeStack ∧ t.mem.table.length = s.mem.table.length ∧
        t.mem.liveWords = s.mem.wordsAfterInstall (s.readReg b) ∧
        t.fetch = (match s.mem.segRead (s.readReg b) (s.readReg c) with
          | .ok w => .ok w
          | .error _ => .error .fetchOutOfRange) ∧
        s.SameRegs t ∧ s.SameChannels t ∧ s.SameControl t) ∧
    (s.mem.liveSeg (s.readReg b) = none → ∃ t, exec (.loadProgram b c) s = .next t ∧ s.FailsWith .invalidHandle t)

/-- R250, and R252 by the spec's decision (D17): a value of at most 255, or any value under MaskLow8, is emitted as its low
byte; above 255 under Fatal the run fails and nothing is emitted. -/
def Obligations.OutputResult : Prop :=
  ∀ (c : RegId) (s : State),
    (s.params.outputRangePolicy = .maskLow8 ∨ (s.readReg c).toNat ≤ 255 → ∃ t b, exec (.output c) s = .next t ∧
      b.toNat = (s.readReg c).toNat % 256 ∧ t.out = s.out ++ [b] ∧ t.inp = s.inp ∧ t.eofAtEnd = s.eofAtEnd ∧
      s.SameRegs t ∧ s.SameStore t ∧ s.SameControl t ∧ t.pc = s.pc + 1) ∧
    (s.params.outputRangePolicy = .fatal ∧ 255 < (s.readReg c).toNat → ∃ t, exec (.output c) s = .next t ∧
      s.FailsWith .outputOutOfRange t)

/-- R255, R257, with IN held in the state (notes/assumptions/4.md): where IN has a response, `R[C]` becomes the next byte
zero-extended, or 0xFFFFFFFF at the end of the stream. -/
def Obligations.InputResult : Prop :=
  ∀ (c : RegId) (s : State), s.inp ≠ [] ∨ s.eofAtEnd = true → ∃ t, exec (.input c) s = .next t ∧
    (t.readReg c).toNat = (match s.inp with | b :: _ => b.toNat | [] => 0xFFFFFFFF) ∧ t.inp = s.inp.tail ∧
    t.eofAtEnd = s.eofAtEnd ∧ t.out = s.out ∧ s.SameRegsBut c t ∧ s.SameStore t ∧ s.SameControl t ∧ t.pc = s.pc + 1

/-- The next fetch, by R321: a SegStore into segment 0 is what the next fetch of that index reads, the very next step's
among them, and after an install the next fetch reads the installed segment at the new PC. -/
def Obligations.NewCodeIsFetchedNext : Prop :=
  (∀ (a b c : RegId) (s : State) (n : Word), s.mem.wf = true → s.readReg a = 0 → s.mem.segLen 0 = .ok n →
    s.readReg b < n → ∃ t, exec (.segStore a b c) s = .next t ∧
      ∀ u : State, u.mem = t.mem → u.pc = s.readReg b → u.fetch = .ok (s.readReg c)) ∧
  (∀ (b c : RegId) (s : State) (w : Word), s.readReg b ≠ 0 → s.mem.segRead (s.readReg b) (s.readReg c) = .ok w →
    ∃ t, exec (.loadProgram b c) s = .next t ∧ t.fetch = .ok w)

/-- R41, by the spec's decision (D5): the exit status by the FSM state. -/
def Obligations.ExitStatusByFsm : Prop :=
  ∀ s : State,
    match s.fsm with
    | .running => s.exitStatus = none
    | .halted => s.exitStatus = some 0
    | .failed r => s.exitStatus = some (Config.failExitStatus r.code) ∧ Config.failExitStatus r.code ≠ 0

/-- R40, the spec's own layout (D3), with R271's codes (D4): the fields of RUNSTATE; STATE is never 11, REASON is the code of the
fail reason and the reserved bits read 0. -/
def Obligations.RunstateLayout : Prop :=
  ∀ s : State,
    s.runstate.toNat % 4 = (match s.fsm with | .running => 0 | .halted => 1 | .failed _ => 2) ∧
    s.runstate.toNat / 4 % 2 = (if s.inWait = true ∧ s.fsm = .running then 1 else 0) ∧
    s.runstate.toNat / 8 % 32 = 0 ∧
    s.runstate.toNat / 256 % 256 = (match s.fsm with
      | .running => 0
      | .halted => 0
      | .failed .invalidOpcode => 1
      | .failed .divideByZero => 2
      | .failed .invalidHandle => 3
      | .failed .offsetOutOfRange => 4
      | .failed .fetchOutOfRange => 5
      | .failed .freeSegmentZero => 6
      | .failed .outputOutOfRange => 7
      | .failed .allocationFailed => 8) ∧
    s.runstate.toNat / 65536 = 0
end

