-- ==== Sys2Proof/Laws/Memory.lean ====
section
/-! SUPPORT. The laws of the segment store: what each operation can do, and that each keeps the canonical form. -/

namespace Sys2Proof.Machine

/-! ## Cells -/

theorem cellsOk_cons {lo hi j : Nat} {u : Word} {rest : List WordCell} :
    cellsOk lo hi ((j, u) :: rest) = true ↔ lo ≤ j ∧ j < hi ∧ u ≠ 0#32 ∧ cellsOk (j + 1) hi rest = true := by
  simp [cellsOk, and_assoc]

theorem cellsOk_weaken {lo lo' hi : Nat} {l : List WordCell} (hlo : lo' ≤ lo) (h : cellsOk lo hi l = true) :
    cellsOk lo' hi l = true := by
  cases l with
  | nil => rfl
  | cons c rest =>
    obtain ⟨h1, h2⟩ := cellsOk_cons.1 h
    exact cellsOk_cons.2 ⟨by omega, h2⟩

theorem cellsRead_below {lo hi i : Nat} {l : List WordCell} (h : cellsOk lo hi l = true) (hi' : i < lo) :
    cellsRead i l = 0#32 := by
  induction l generalizing lo with
  | nil => rfl
  | cons c rest ih =>
    obtain ⟨h1, -, -, h2⟩ := cellsOk_cons.1 h
    have hne : i ≠ c.1 := by omega
    simp only [cellsRead, hne, if_false]
    exact ih h2 (by omega)

theorem cellsWrite_ok {lo hi i : Nat} {v : Word} {l : List WordCell} (h : cellsOk lo hi l = true) (hlo : lo ≤ i)
    (hhi : i < hi) : cellsOk lo hi (cellsWrite i v l) = true := by
  induction l generalizing lo with
  | nil => by_cases hv : v = 0#32 <;> simp [cellsWrite, cellsOk, hv, hlo, hhi]
  | cons c rest ih =>
    obtain ⟨h1, h2, h3, h4⟩ := cellsOk_cons.1 h
    unfold cellsWrite
    split_ifs with hlt hv heq hv
    · exact h
    · exact cellsOk_cons.2 ⟨hlo, hhi, hv, cellsOk_cons.2 ⟨by omega, h2, h3, h4⟩⟩
    · exact cellsOk_weaken (by omega) h4
    · exact cellsOk_cons.2 ⟨hlo, hhi, hv, heq ▸ h4⟩
    · exact cellsOk_cons.2 ⟨h1, h2, h3, ih h4 (by omega)⟩

/-- Read after write, in a canonical list. -/
theorem cellsRead_cellsWrite {lo hi : Nat} {l : List WordCell} (h : cellsOk lo hi l = true) (i j : Nat) (v : Word) :
    cellsRead j (cellsWrite i v l) = if j = i then v else cellsRead j l := by
  induction l generalizing lo with
  | nil => by_cases hv : v = 0#32 <;> by_cases hj : j = i <;> simp [cellsWrite, cellsRead, hv, hj]
  | cons c rest ih =>
    obtain ⟨-, -, -, h4⟩ := cellsOk_cons.1 h
    unfold cellsWrite
    by_cases hlt : i < c.1
    · by_cases hv : v = 0#32
      · by_cases hj : j = i
        · have hne : j ≠ c.1 := by omega
          simp only [hlt, hv, hj, if_true, cellsRead, show i ≠ c.1 by omega, if_false]
          exact cellsRead_below h4 (by omega)
        · simp [hlt, hv, hj]
      · simp [hlt, hv, cellsRead]
    · by_cases heq : i = c.1
      · by_cases hv : v = 0#32
        · by_cases hj : j = i
          · subst hj
            rw [if_neg hlt, if_pos heq, if_pos hv, if_pos rfl, hv]
            exact cellsRead_below h4 (by omega)
          · simp [heq, hv, cellsRead, show j ≠ c.1 by omega]
        · by_cases hj : j = i
          · simp [heq, hv, hj, cellsRead]
          · simp [heq, hv, cellsRead, show j ≠ c.1 by omega]
      · by_cases hj : j = c.1
        · simp [hlt, heq, hj, cellsRead, Ne.symm heq]
        · simp [hlt, heq, hj, cellsRead, ih h4]

theorem cellsOf_ok {k hi : Nat} {ws : List Word} (h : k + ws.length ≤ hi) : cellsOk k hi (cellsOf k ws) = true := by
  induction ws generalizing k with
  | nil => rfl
  | cons w ws ih =>
    simp only [List.length_cons] at h
    unfold cellsOf
    split_ifs with hw
    · exact cellsOk_weaken (by omega) (ih (k := k + 1) (by omega))
    · exact cellsOk_cons.2 ⟨by omega, by omega, hw, ih (by omega)⟩

/-- The Words placed from an offset on read back in order. -/
theorem cellsRead_cellsOf (k j : Nat) (ws : List Word) : cellsRead (k + j) (cellsOf k ws) = ws.getD j 0#32 := by
  induction ws generalizing k j with
  | nil => rfl
  | cons w ws ih =>
    unfold cellsOf
    cases j with
    | zero =>
      split_ifs with hw
      · have := cellsRead_below (hi := k + 1 + ws.length) (cellsOf_ok (k := k + 1) (ws := ws) (by omega)) (i := k) (by omega)
        simp [this, hw]
      · simp [cellsRead]
    | succ j =>
      have := ih (k + 1) j
      rw [show k + 1 + j = k + (j + 1) by omega] at this
      split_ifs with hw
      · simpa using this
      · simp [cellsRead, this]

/-! ## Segments -/

theorem Segment.zeroed_wf (len : Word) : (Segment.zeroed len).wf = true := rfl

theorem Segment.ofWords_wf {ws : List Word} (h : ws.length < 2 ^ 32) : (Segment.ofWords ws).wf = true := by
  have hlen : (BitVec.ofNat 32 ws.length).toNat = ws.length := by
    rw [BitVec.toNat_ofNat, Nat.mod_eq_of_lt h]
  simp only [Segment.wf, Segment.ofWords, hlen]
  exact cellsOf_ok (by omega)

/-- Everything a write to a segment can do. -/
theorem Segment.write_spec {g g' : Segment} {i v : Word} (h : g.write i v = some g') :
    i < g.len ∧ g'.len = g.len ∧ (g.wf = true → g'.wf = true ∧ ∀ j, g'.read j = if j = i then some v else g.read j) := by
  unfold Segment.write at h
  split_ifs at h with hi
  cases h
  refine ⟨hi, rfl, fun hw => ⟨cellsWrite_ok hw (Nat.zero_le _) hi, fun j => ?_⟩⟩
  simp only [Segment.read, cellsRead_cellsWrite hw, BitVec.toNat_inj]
  split_ifs with h1 h2 h2 <;> simp_all

/-! ## Slots -/

theorem Memory.liveSeg_eq_some {m : Memory} {h : Word} {g : Segment} :
    m.liveSeg h = some g ↔ m.table[h.toNat]? = some (.live g) := by
  unfold Memory.liveSeg
  split <;> simp_all

theorem Memory.liveSeg_eq_none {m : Memory} {h : Word} :
    m.liveSeg h = none ↔ m.table[h.toNat]? = some .free ∨ m.table[h.toNat]? = none := by
  unfold Memory.liveSeg
  split <;> simp_all

theorem Memory.liveSeg_lt {m : Memory} {h : Word} {g : Segment} (hl : m.liveSeg h = some g) :
    h.toNat < m.table.length := by
  obtain ⟨hlt, -⟩ := List.getElem?_eq_some_iff.1 (Memory.liveSeg_eq_some.1 hl)
  exact hlt

@[simp] theorem Memory.liveSeg_empty (h : Word) : Memory.empty.liveSeg h = none := rfl

theorem Memory.setSlot_get {m : Memory} {h : Word} {x : Slot} (hlt : h.toNat < m.table.length) (k : Word) :
    (m.setSlot h x).table[k.toNat]? = if k = h then some x else m.table[k.toNat]? := by
  simp only [Memory.setSlot, List.getElem?_set, BitVec.toNat_inj]
  by_cases hk : k = h
  · subst hk; simp [hlt]
  · simp [hk, Ne.symm hk]

@[simp] theorem Memory.setSlot_freeStack (m : Memory) (h : Word) (x : Slot) : (m.setSlot h x).freeStack = m.freeStack := rfl

@[simp] theorem Memory.setSlot_length (m : Memory) (h : Word) (x : Slot) :
    (m.setSlot h x).table.length = m.table.length := by simp [Memory.setSlot]

theorem Memory.liveSeg_setLive {m : Memory} {h : Word} {g : Segment} (hlt : h.toNat < m.table.length) (k : Word) :
    (m.setSlot h (.live g)).liveSeg k = if k = h then some g else m.liveSeg k := by
  simp only [Memory.liveSeg, Memory.setSlot_get hlt]
  by_cases hk : k = h <;> simp [hk]

theorem Memory.liveSeg_setFree {m : Memory} {h : Word} (hlt : h.toNat < m.table.length) (k : Word) :
    (m.setSlot h .free).liveSeg k = if k = h then none else m.liveSeg k := by
  simp only [Memory.liveSeg, Memory.setSlot_get hlt]
  by_cases hk : k = h <;> simp [hk]

theorem Memory.wf_liveSeg {m : Memory} {h : Word} {g : Segment} (hw : m.wf = true) (hl : m.liveSeg h = some g) :
    g.wf = true := by
  have hm := List.mem_of_getElem? (Memory.liveSeg_eq_some.1 hl)
  exact (List.all_eq_true.1 hw) _ hm

theorem Memory.wf_setSlot {m : Memory} {h : Word} {x : Slot} (hw : m.wf = true) (hx : x.wf = true) :
    (m.setSlot h x).wf = true := by
  refine List.all_eq_true.2 fun y hy => ?_
  rcases List.mem_or_eq_of_mem_set hy with hy | rfl
  · exact (List.all_eq_true.1 hw) y hy
  · exact hx

/-- The live Words after a slot that exists is replaced. -/
theorem Memory.liveWords_setSlot {m : Memory} {h : Word} {x y : Slot} (hx : m.table[h.toNat]? = some x) :
    (m.setSlot h y).liveWords + x.words = m.liveWords + y.words := by
  have key : ∀ (l : List Slot) (n : Nat), l[n]? = some x →
      ((l.set n y).map Slot.words).sum + x.words = (l.map Slot.words).sum + y.words := by
    intro l
    induction l with
    | nil => intro n hn; cases hn
    | cons z l ih =>
      intro n hn
      cases n with
      | zero => cases hn; simp only [List.set_cons_zero, List.map_cons, List.sum_cons]; omega
      | succ n =>
        have := ih n hn
        simp only [List.set_cons_succ, List.map_cons, List.sum_cons]
        omega
  exact key _ _ hx

/-! ## The operations: all that each can do -/

theorem Memory.segRead_ok {m : Memory} {h i v : Word} :
    m.segRead h i = .ok v ↔ ∃ g, m.liveSeg h = some g ∧ i < g.len ∧ v = cellsRead i.toNat g.cells := by
  unfold Memory.segRead Segment.read
  cases m.liveSeg h with
  | none => simp
  | some g => by_cases hi : i < g.len <;> simp [hi, eq_comm (a := v)]

/-- A read depends on the segment its handle names and on nothing else. -/
theorem Memory.segRead_congr {m m' : Memory} {h h' : Word} (hl : m'.liveSeg h' = m.liveSeg h) (i : Word) :
    m'.segRead h' i = m.segRead h i := by
  simp only [Memory.segRead, hl]

theorem Memory.segWrite_spec {m m' : Memory} {h i v : Word} (hw : m.segWrite h i v = .ok m') :
    ∃ g g', m.liveSeg h = some g ∧ g.write i v = some g' ∧ m' = m.setSlot h (.live g') := by
  unfold Memory.segWrite at hw
  split at hw
  · cases hw
  · rename_i g hg
    split at hw
    · cases hw
    · rename_i g' hg'
      cases hw
      exact ⟨g, g', hg, hg', rfl⟩

theorem Memory.segAlloc_spec {p : Params} {len h : Word} {m m' : Memory} (ha : m.segAlloc p len = .ok (h, m')) :
    m.liveWords + len.toNat ≤ p.memCapacity ∧
      ((∃ rest, m.freeStack = h :: rest ∧ m' = { m with freeStack := rest }.setSlot h (.live (Segment.zeroed len))) ∨
       (m.freeStack = [] ∧ m.table.length < p.maxHandles ∧ h = BitVec.ofNat 32 m.table.length ∧
          m' = { m with table := m.table ++ [.live (Segment.zeroed len)] })) := by
  unfold Memory.segAlloc at ha
  split at ha
  · cases ha
  · refine ⟨by omega, ?_⟩
    split at ha
    · rename_i k rest hk
      cases ha
      exact .inl ⟨rest, hk, rfl⟩
    · rename_i hk
      split at ha
      · cases ha
      · cases ha
        exact .inr ⟨hk, by omega, rfl, rfl⟩

theorem Memory.segAlloc_error {p : Params} {len : Word} {m : Memory} {r : FailReason}
    (ha : m.segAlloc p len = .error r) :
    r = .allocationFailed ∧ (p.memCapacity < m.liveWords + len.toNat ∨
      (m.freeStack = [] ∧ p.maxHandles ≤ m.table.length)) := by
  unfold Memory.segAlloc at ha
  split at ha
  · rename_i hc
    cases ha
    exact ⟨rfl, .inl hc⟩
  · split at ha
    · cases ha
    · rename_i hk
      split at ha
      · rename_i hn
        cases ha
        exact ⟨rfl, .inr ⟨hk, hn⟩⟩
      · cases ha

theorem Memory.segFree_spec {m m' : Memory} {h : Word} (hf : m.segFree h = .ok m') :
    h ≠ 0#32 ∧ (∃ g, m.liveSeg h = some g) ∧ m' = { m.setSlot h .free with freeStack := h :: m.freeStack } := by
  unfold Memory.segFree at hf
  split at hf
  · cases hf
  · rename_i h0
    split at hf
    · cases hf
    · rename_i g hg
      cases hf
      exact ⟨h0, ⟨g, hg⟩, rfl⟩

theorem Memory.segInstall_spec {m m' : Memory} {h : Word} (hi : m.segInstall h = .ok m') :
    ∃ g, m.liveSeg h = some g ∧ m' = m.setSlot 0#32 (.live g) := by
  unfold Memory.segInstall at hi
  split at hi
  · cases hi
  · rename_i g hg
    cases hi
    exact ⟨g, hg, rfl⟩

theorem Memory.segInstall_error {m : Memory} {h : Word} {r : FailReason} (hi : m.segInstall h = .error r) :
    r = .invalidHandle ∧ m.liveSeg h = none := by
  unfold Memory.segInstall at hi
  split at hi
  · rename_i hg; cases hi; exact ⟨rfl, hg⟩
  · cases hi

/-! ## Every operation keeps the canonical form -/

theorem Memory.empty_wf : Memory.empty.wf = true := rfl

theorem State.reset_mem_wf : State.reset.mem.wf = true := rfl

theorem Memory.segWrite_wf {m m' : Memory} {h i v : Word} (hm : m.wf = true) (hw : m.segWrite h i v = .ok m') :
    m'.wf = true := by
  obtain ⟨g, g', hg, hg', rfl⟩ := Memory.segWrite_spec hw
  exact Memory.wf_setSlot hm ((Segment.write_spec hg').2.2 (Memory.wf_liveSeg hm hg)).1

theorem Memory.segAlloc_wf {p : Params} {len h : Word} {m m' : Memory} (hm : m.wf = true)
    (ha : m.segAlloc p len = .ok (h, m')) : m'.wf = true := by
  rcases (Memory.segAlloc_spec ha).2 with ⟨rest, -, rfl⟩ | ⟨-, -, -, rfl⟩
  · exact Memory.wf_setSlot (m := { m with freeStack := rest }) hm (Segment.zeroed_wf len)
  · simpa [Memory.wf, Slot.wf, Segment.zeroed_wf] using hm

theorem Memory.segFree_wf {m m' : Memory} {h : Word} (hm : m.wf = true) (hf : m.segFree h = .ok m') : m'.wf = true := by
  obtain ⟨-, -, rfl⟩ := Memory.segFree_spec hf
  exact Memory.wf_setSlot hm rfl

theorem Memory.segInstall_wf {m m' : Memory} {h : Word} (hm : m.wf = true) (hi : m.segInstall h = .ok m') :
    m'.wf = true := by
  obtain ⟨g, hg, rfl⟩ := Memory.segInstall_spec hi
  exact Memory.wf_setSlot hm (Memory.wf_liveSeg hm hg)

theorem Memory.segReleaseAll_wf (m : Memory) : m.segReleaseAll.wf = true := rfl

end Sys2Proof.Machine
end

