-- ==== Sys2Proof/Laws/State.lean ====
section
/-! SUPPORT. What each update of the state leaves in each field, so that no later proof unfolds a record update. -/

namespace Sys2Proof.Machine

variable (s : State)

@[simp] theorem State.writeReg_regs (r : RegId) (v : Word) : (s.writeReg r v).regs = s.regs.set r v := rfl
@[simp] theorem State.writeReg_pc (r : RegId) (v : Word) : (s.writeReg r v).pc = s.pc := rfl
@[simp] theorem State.writeReg_fsm (r : RegId) (v : Word) : (s.writeReg r v).fsm = s.fsm := rfl
@[simp] theorem State.writeReg_inWait (r : RegId) (v : Word) : (s.writeReg r v).inWait = s.inWait := rfl
@[simp] theorem State.writeReg_mem (r : RegId) (v : Word) : (s.writeReg r v).mem = s.mem := rfl
@[simp] theorem State.writeReg_params (r : RegId) (v : Word) : (s.writeReg r v).params = s.params := rfl
@[simp] theorem State.writeReg_inp (r : RegId) (v : Word) : (s.writeReg r v).inp = s.inp := rfl
@[simp] theorem State.writeReg_eofAtEnd (r : RegId) (v : Word) : (s.writeReg r v).eofAtEnd = s.eofAtEnd := rfl
@[simp] theorem State.writeReg_out (r : RegId) (v : Word) : (s.writeReg r v).out = s.out := rfl

@[simp] theorem State.advance_regs : (s.advance).regs = s.regs := rfl
@[simp] theorem State.advance_pc : (s.advance).pc = s.pc + 1 := rfl
@[simp] theorem State.advance_fsm : (s.advance).fsm = s.fsm := rfl
@[simp] theorem State.advance_inWait : (s.advance).inWait = false := rfl
@[simp] theorem State.advance_mem : (s.advance).mem = s.mem := rfl
@[simp] theorem State.advance_params : (s.advance).params = s.params := rfl
@[simp] theorem State.advance_inp : (s.advance).inp = s.inp := rfl
@[simp] theorem State.advance_eofAtEnd : (s.advance).eofAtEnd = s.eofAtEnd := rfl
@[simp] theorem State.advance_out : (s.advance).out = s.out := rfl

@[simp] theorem State.jumpTo_regs (x : Word) : (s.jumpTo x).regs = s.regs := rfl
@[simp] theorem State.jumpTo_pc (x : Word) : (s.jumpTo x).pc = x := rfl
@[simp] theorem State.jumpTo_fsm (x : Word) : (s.jumpTo x).fsm = s.fsm := rfl
@[simp] theorem State.jumpTo_inWait (x : Word) : (s.jumpTo x).inWait = false := rfl
@[simp] theorem State.jumpTo_mem (x : Word) : (s.jumpTo x).mem = s.mem := rfl
@[simp] theorem State.jumpTo_params (x : Word) : (s.jumpTo x).params = s.params := rfl
@[simp] theorem State.jumpTo_inp (x : Word) : (s.jumpTo x).inp = s.inp := rfl
@[simp] theorem State.jumpTo_eofAtEnd (x : Word) : (s.jumpTo x).eofAtEnd = s.eofAtEnd := rfl
@[simp] theorem State.jumpTo_out (x : Word) : (s.jumpTo x).out = s.out := rfl

@[simp] theorem State.raiseFatal_regs (r : FailReason) : (s.raiseFatal r).regs = s.regs := rfl
@[simp] theorem State.raiseFatal_pc (r : FailReason) : (s.raiseFatal r).pc = s.pc := rfl
@[simp] theorem State.raiseFatal_fsm (r : FailReason) : (s.raiseFatal r).fsm = .failed r := rfl
@[simp] theorem State.raiseFatal_inWait (r : FailReason) : (s.raiseFatal r).inWait = false := rfl
@[simp] theorem State.raiseFatal_mem (r : FailReason) : (s.raiseFatal r).mem = Memory.empty := rfl
@[simp] theorem State.raiseFatal_params (r : FailReason) : (s.raiseFatal r).params = s.params := rfl
@[simp] theorem State.raiseFatal_inp (r : FailReason) : (s.raiseFatal r).inp = s.inp := rfl
@[simp] theorem State.raiseFatal_eofAtEnd (r : FailReason) : (s.raiseFatal r).eofAtEnd = s.eofAtEnd := rfl
@[simp] theorem State.raiseFatal_out (r : FailReason) : (s.raiseFatal r).out = s.out := rfl

@[simp] theorem State.enterHalted_regs : (s.enterHalted).regs = s.regs := rfl
@[simp] theorem State.enterHalted_pc : (s.enterHalted).pc = s.pc := rfl
@[simp] theorem State.enterHalted_fsm : (s.enterHalted).fsm = .halted := rfl
@[simp] theorem State.enterHalted_inWait : (s.enterHalted).inWait = false := rfl
@[simp] theorem State.enterHalted_mem : (s.enterHalted).mem = Memory.empty := rfl
@[simp] theorem State.enterHalted_params : (s.enterHalted).params = s.params := rfl
@[simp] theorem State.enterHalted_inp : (s.enterHalted).inp = s.inp := rfl
@[simp] theorem State.enterHalted_eofAtEnd : (s.enterHalted).eofAtEnd = s.eofAtEnd := rfl
@[simp] theorem State.enterHalted_out : (s.enterHalted).out = s.out := rfl

@[simp] theorem State.hold_regs : (s.hold).regs = s.regs := rfl
@[simp] theorem State.hold_pc : (s.hold).pc = s.pc := rfl
@[simp] theorem State.hold_fsm : (s.hold).fsm = s.fsm := rfl
@[simp] theorem State.hold_inWait : (s.hold).inWait = true := rfl
@[simp] theorem State.hold_mem : (s.hold).mem = s.mem := rfl
@[simp] theorem State.hold_params : (s.hold).params = s.params := rfl
@[simp] theorem State.hold_inp : (s.hold).inp = s.inp := rfl
@[simp] theorem State.hold_eofAtEnd : (s.hold).eofAtEnd = s.eofAtEnd := rfl
@[simp] theorem State.hold_out : (s.hold).out = s.out := rfl

@[simp] theorem State.emit_regs (b : Byte) : (s.emit b).regs = s.regs := rfl
@[simp] theorem State.emit_pc (b : Byte) : (s.emit b).pc = s.pc := rfl
@[simp] theorem State.emit_fsm (b : Byte) : (s.emit b).fsm = s.fsm := rfl
@[simp] theorem State.emit_inWait (b : Byte) : (s.emit b).inWait = s.inWait := rfl
@[simp] theorem State.emit_mem (b : Byte) : (s.emit b).mem = s.mem := rfl
@[simp] theorem State.emit_params (b : Byte) : (s.emit b).params = s.params := rfl
@[simp] theorem State.emit_inp (b : Byte) : (s.emit b).inp = s.inp := rfl
@[simp] theorem State.emit_eofAtEnd (b : Byte) : (s.emit b).eofAtEnd = s.eofAtEnd := rfl
@[simp] theorem State.emit_out (b : Byte) : (s.emit b).out = s.out ++ [b] := rfl

/-! ## The register file -/

@[simp] theorem State.readReg_mk (regs : Vector Word 8) (pc : Word) (fsm : Fsm) (w : Bool) (m : Memory) (p : Params)
    (inp : List Byte) (e : Bool) (out : List Byte) (r : RegId) :
    (State.mk regs pc fsm w m p inp e out).readReg r = regs.get r := rfl

theorem State.readReg_writeReg (r d : RegId) (v : Word) :
    (s.writeReg d v).readReg r = if r = d then v else s.readReg r := by
  simp only [State.readReg, State.writeReg, Vector.get_eq_getElem, Vector.getElem_set, eq_comm (a := d.val), Fin.ext_iff]

@[simp] theorem State.readReg_writeReg_same (d : RegId) (v : Word) : (s.writeReg d v).readReg d = v := by
  simp [State.readReg_writeReg]

theorem State.readReg_writeReg_other {r d : RegId} (h : r ≠ d) (v : Word) :
    (s.writeReg d v).readReg r = s.readReg r := by
  simp [State.readReg_writeReg, h]

@[simp] theorem State.readReg_advance (q : RegId) : (s.advance).readReg q = s.readReg q := rfl
@[simp] theorem State.readReg_jumpTo (x : Word) (q : RegId) : (s.jumpTo x).readReg q = s.readReg q := rfl
@[simp] theorem State.readReg_raiseFatal (r : FailReason) (q : RegId) : (s.raiseFatal r).readReg q = s.readReg q := rfl
@[simp] theorem State.readReg_enterHalted (q : RegId) : (s.enterHalted).readReg q = s.readReg q := rfl
@[simp] theorem State.readReg_hold (q : RegId) : (s.hold).readReg q = s.readReg q := rfl
@[simp] theorem State.readReg_emit (b : Byte) (q : RegId) : (s.emit b).readReg q = s.readReg q := rfl

@[simp] theorem State.readReg_withMem (m : Memory) (q : RegId) : { s with mem := m }.readReg q = s.readReg q := rfl

@[simp] theorem State.readReg_withInp (bs : List Byte) (q : RegId) : { s with inp := bs }.readReg q = s.readReg q := rfl

/-! ## The host's delivery -/

@[simp] theorem State.hostDeliver_regs (x : InResponse) : (s.hostDeliver x).regs = s.regs := by cases x <;> rfl
@[simp] theorem State.hostDeliver_pc (x : InResponse) : (s.hostDeliver x).pc = s.pc := by cases x <;> rfl
@[simp] theorem State.hostDeliver_fsm (x : InResponse) : (s.hostDeliver x).fsm = s.fsm := by cases x <;> rfl
@[simp] theorem State.hostDeliver_inWait (x : InResponse) : (s.hostDeliver x).inWait = false := by cases x <;> rfl
@[simp] theorem State.hostDeliver_mem (x : InResponse) : (s.hostDeliver x).mem = s.mem := by cases x <;> rfl
@[simp] theorem State.hostDeliver_params (x : InResponse) : (s.hostDeliver x).params = s.params := by cases x <;> rfl
@[simp] theorem State.hostDeliver_out (x : InResponse) : (s.hostDeliver x).out = s.out := by cases x <;> rfl

end Sys2Proof.Machine
end

