-- ==== Sys2Proof/Laws/Ops.lean ====
section
/-! SUPPORT. One lemma per shared operation outside the store: all that it can do. -/

namespace Sys2Proof.Machine

theorem nonZero_iff {w : Word} : nonZero w = true ↔ w ≠ 0#32 := by simp [nonZero]

theorem nonZero_eq_false {w : Word} : nonZero w = false ↔ w = 0#32 := by simp [nonZero]

theorem State.fetch_ok {s : State} {w : Word} : s.fetch = .ok w ↔ s.mem.segRead 0#32 s.pc = .ok w := by
  unfold State.fetch
  split <;> simp_all

/-- Where fetch fails: beyond the end of segment 0, or, outside the invariant, with no segment 0. -/
theorem State.fetch_error {s : State} {r : FailReason} (h : s.fetch = .error r) :
    (r = .fetchOutOfRange ∧ ∃ g, s.mem.liveSeg 0#32 = some g ∧ g.len ≤ s.pc) ∨
      (r = .invalidHandle ∧ s.mem.liveSeg 0#32 = none) := by
  unfold State.fetch Memory.segRead Segment.read at h
  cases hg : s.mem.liveSeg 0#32 with
  | none => exact .inr ⟨by simpa [hg] using h.symm, rfl⟩
  | some g =>
    by_cases hi : s.pc < g.len
    · simp [hg, hi] at h
    · exact .inl ⟨by simpa [hg, hi] using h.symm, g, rfl, BitVec.not_lt.1 hi⟩

/-- Fetch depends on the store and the PC alone. -/
theorem State.fetch_congr {s t : State} (hm : t.mem = s.mem) (hp : t.pc = s.pc) : t.fetch = s.fetch := by
  simp only [State.fetch, hm, hp]

theorem State.receive_some {s t : State} {x : InResponse} (h : s.receive = some (x, t)) :
    (∃ b rest, s.inp = b :: rest ∧ x = .byte b ∧ t = { s with inp := rest }) ∨
      (s.inp = [] ∧ s.eofAtEnd = true ∧ x = .eof ∧ t = s) := by
  unfold State.receive at h
  split at h
  · rename_i b rest hb
    cases h
    exact .inl ⟨b, rest, hb, rfl, rfl⟩
  · rename_i hb
    split at h
    · rename_i he
      cases h
      exact .inr ⟨hb, he, rfl, rfl⟩
    · cases h

theorem State.receive_none {s : State} : s.receive = none ↔ s.inp = [] ∧ s.eofAtEnd = false := by
  unfold State.receive
  split <;> simp_all

theorem OutputRangePolicy.byteOf_some {p : OutputRangePolicy} {v : Word} {b : Byte} (h : p.byteOf v = some b) :
    b = v.setWidth 8 ∧ (p = .maskLow8 ∨ v ≤ 255) := by
  unfold OutputRangePolicy.byteOf at h
  split at h
  · cases h; exact ⟨rfl, .inl rfl⟩
  · split at h
    · cases h
    · rename_i hv
      cases h
      exact ⟨rfl, .inr (BitVec.not_lt.1 hv)⟩

theorem OutputRangePolicy.byteOf_none {p : OutputRangePolicy} {v : Word} (h : p.byteOf v = none) :
    p = .fatal ∧ 255 < v := by
  unfold OutputRangePolicy.byteOf at h
  split at h
  · cases h
  · split at h
    · exact ⟨rfl, by assumption⟩
    · cases h

end Sys2Proof.Machine
end

