-- ==== Sys2Proof/Laws/PerInstr.lean ====
section
/-! SUPPORT. Laws stated per instruction. `OpcodeField`: the opcode of the table stands in bits 31:28 of the canonical
encoding (30_encoding.md R120, R124). -/

namespace Sys2Proof.Laws

/-- Bits 31:28 of a Standard-format word hold its opcode. -/
theorem field_standardWord (op : BitVec 4) (a b c : RegId) : field (standardWord op a b c) 4 28 = op := by
  revert op a b c
  decide +kernel

namespace OpcodeField

/-- Bits 31:28 of the instruction's encoding hold its opcode. -/
def Statement (i : Instr) : Prop := field (encode i) 4 28 = opcode i

theorem conditionalMove (a b c : RegId) : Statement (.conditionalMove a b c) := field_standardWord 0 a b c
theorem segLoad (a b c : RegId) : Statement (.segLoad a b c) := field_standardWord 1 a b c
theorem segStore (a b c : RegId) : Statement (.segStore a b c) := field_standardWord 2 a b c
theorem add (a b c : RegId) : Statement (.add a b c) := field_standardWord 3 a b c
theorem multiply (a b c : RegId) : Statement (.multiply a b c) := field_standardWord 4 a b c
theorem divide (a b c : RegId) : Statement (.divide a b c) := field_standardWord 5 a b c
theorem nand (a b c : RegId) : Statement (.nand a b c) := field_standardWord 6 a b c
theorem halt : Statement .halt := field_standardWord 7 0 0 0
theorem mapSegment (b c : RegId) : Statement (.mapSegment b c) := field_standardWord 8 0 b c
theorem unmapSegment (c : RegId) : Statement (.unmapSegment c) := field_standardWord 9 0 0 c
theorem output (c : RegId) : Statement (.output c) := field_standardWord 10 0 0 c
theorem input (c : RegId) : Statement (.input c) := field_standardWord 11 0 0 c
theorem loadProgram (b c : RegId) : Statement (.loadProgram b c) := field_standardWord 12 0 b c
theorem loadImmediate (a : RegId) (imm : Imm25) : Statement (.loadImmediate a imm) := by
  apply BitVec.eq_of_getLsbD_eq
  intro k hk
  simp only [field, bitField, encode, immediateWord, opcode, BitVec.getLsbD_extractLsb', BitVec.getLsbD_setWidth,
    BitVec.getLsbD_append]
  interval_cases k <;> simp

end OpcodeField

end Sys2Proof.Laws
end

