-- ==== Sys2Proof/Laws/Runs.lean ====
section
/-! SUPPORT. Runs, one step at a time. -/

namespace Sys2Proof.Machine

theorem State.runsTo_zero {s t : State} : s.RunsTo 0 t ↔ t = s := by
  constructor
  · intro h
    simp only [State.RunsTo, Host.Core.run] at h
    cases h
    rfl
  · rintro rfl
    rfl

theorem State.runsTo_succ {s u t : State} {k : Nat} (h : step s = .next u) : s.RunsTo (k + 1) t ↔ u.RunsTo k t := by
  simp only [State.RunsTo, Host.Core.run, show core.step s = .next u from h]

end Sys2Proof.Machine
end

