-- ==== Sys2Proof/Laws/Safety.lean ====
section
/-! SUPPORT. The terms of the statements and the store's operations: what each does to the live Words. -/

namespace Sys2Proof.Machine

/-- The length `lenOr0` gives is what the slot adds to the live Words. -/
theorem Memory.lenOr0_eq_words {m : Memory} {h : Word} {x : Slot} (hx : m.table[h.toNat]? = some x) :
    m.lenOr0 h = x.words := by
  cases x <;> simp [Memory.lenOr0, Memory.segLen, Memory.liveSeg, hx, Slot.words]

/-- The live Words that `SegInstall` leaves are those `wordsAfterInstall` names. -/
theorem Memory.liveWords_install {m : Memory} {h : Word} {g : Segment} (hg : m.liveSeg h = some g) :
    (m.setSlot 0#32 (.live g)).liveWords = m.wordsAfterInstall h := by
  have hlt : (0#32).toNat < m.table.length := by have := Memory.liveSeg_lt hg; simp; omega
  obtain ⟨x, h0⟩ : ∃ x, m.table[(0#32).toNat]? = some x := ⟨_, List.getElem?_eq_getElem hlt⟩
  have hs : (m.setSlot 0#32 (.live g)).liveWords + x.words = m.liveWords + g.len.toNat := Memory.liveWords_setSlot h0
  have hle : (m.setSlot 0#32 .free).liveWords + x.words = m.liveWords + 0 := Memory.liveWords_setSlot h0
  have e0 : m.lenOr0 0#32 = x.words := Memory.lenOr0_eq_words h0
  have eh : m.lenOr0 h = g.len.toNat := Memory.lenOr0_eq_words (Memory.liveSeg_eq_some.1 hg)
  have : m.wordsAfterInstall h = m.liveWords - m.lenOr0 0#32 + m.lenOr0 h := rfl
  omega

/-! ## R45 (e): the live Words against the capacity -/

/-- What a length becomes where a slot that exists is replaced. -/
theorem Memory.lenOr0_setSlot {m : Memory} {h : Word} {x : Slot} (hlt : h.toNat < m.table.length) (k : Word) :
    (m.setSlot h x).lenOr0 k = if k = h then x.words else m.lenOr0 k := by
  have hk := Memory.setSlot_get (x := x) hlt k
  split_ifs with he
  · exact Memory.lenOr0_eq_words (by rw [hk, if_pos he])
  · simp only [Memory.lenOr0, Memory.segLen, Memory.liveSeg, hk, if_neg he]

/-- Segment 0 and the rest are all there is. -/
theorem Memory.liveWords_eq_parts (m : Memory) : m.liveWords = m.lenOr0 0#32 + m.wordsOutsideZero := by
  obtain ⟨table, fs⟩ := m
  cases table with
  | nil => rfl
  | cons x rest =>
    rw [Memory.lenOr0_eq_words (x := x) (by rfl)]
    simp [Memory.liveWords, Memory.wordsOutsideZero]

/-- (e) itself gives (e) in parts. -/
theorem Memory.FitsInParts.of_liveWords {m : Memory} {p : Params} (h : m.liveWords ≤ p.memCapacity) : m.FitsInParts p := by
  have : m.liveWords = m.lenOr0 0 + m.wordsOutsideZero := m.liveWords_eq_parts
  exact ⟨by omega, by omega⟩

/-- (e) in parts bounds the live Words all the same. -/
theorem Memory.FitsInParts.liveWords_le {m : Memory} {p : Params} (h : m.FitsInParts p) :
    m.liveWords ≤ 2 * p.memCapacity := by
  have : m.liveWords = m.lenOr0 0 + m.wordsOutsideZero := m.liveWords_eq_parts
  have := h.1
  have := h.2
  omega

/-- A segment other than segment 0 is no longer than those beside segment 0 are together. -/
theorem Memory.lenOr0_le_wordsOutsideZero (m : Memory) {h : Word} (hne : h ≠ 0#32) : m.lenOr0 h ≤ m.wordsOutsideZero := by
  cases hg : m.liveSeg h with
  | none => simp [Memory.lenOr0, Memory.segLen, hg]
  | some g =>
    have hx := Memory.liveSeg_eq_some.1 hg
    have hw : (m.setSlot h .free).liveWords + g.len.toNat = m.liveWords + 0 := Memory.liveWords_setSlot hx
    have h0 : (m.setSlot h .free).lenOr0 0#32 = m.lenOr0 0#32 := by
      rw [Memory.lenOr0_setSlot (Memory.liveSeg_lt hg), if_neg (Ne.symm hne)]
    have hl : m.lenOr0 h = g.len.toNat := Memory.lenOr0_eq_words hx
    have := Memory.liveWords_eq_parts (m.setSlot h .free)
    have := Memory.liveWords_eq_parts m
    omega

theorem Memory.segReleaseAll_fitsInParts (m : Memory) (p : Params) : m.segReleaseAll.FitsInParts p :=
  ⟨Nat.zero_le _, Nat.zero_le _⟩

/-- A write changes no length. -/
theorem Memory.segWrite_fitsInParts {m m' : Memory} {p : Params} {h i v : Word} (hm : m.FitsInParts p)
    (hw : m.segWrite h i v = .ok m') : m'.FitsInParts p ∧ m'.liveWords = m.liveWords := by
  obtain ⟨g, g', hg, hg', rfl⟩ := Memory.segWrite_spec hw
  have hx := Memory.liveSeg_eq_some.1 hg
  have hl : (m.setSlot h (.live g')).liveWords + g.len.toNat = m.liveWords + g'.len.toNat := Memory.liveWords_setSlot hx
  rw [(Segment.write_spec hg').2.1] at hl
  have h0 : (m.setSlot h (.live g')).lenOr0 0#32 = m.lenOr0 0#32 := by
    rw [Memory.lenOr0_setSlot (Memory.liveSeg_lt hg)]
    split_ifs with he
    · rw [he, Memory.lenOr0_eq_words hx]; simp only [Slot.words, (Segment.write_spec hg').2.1]
    · rfl
  have := Memory.liveWords_eq_parts (m.setSlot h (.live g'))
  have := Memory.liveWords_eq_parts m
  have h1 : m.wordsOutsideZero ≤ p.memCapacity := hm.1
  have h2 : m.lenOr0 0#32 ≤ p.memCapacity := hm.2
  exact ⟨⟨by omega, h0 ▸ h2⟩, by omega⟩

/-- An allocation that succeeds leaves (e) itself, whatever was before it. -/
theorem Memory.segAlloc_liveWords {p : Params} {len h : Word} {m m' : Memory} (hm : m.StoreInv p)
    (ha : m.segAlloc p len = .ok (h, m')) : m'.liveWords = m.liveWords + len.toNat ∧ m'.liveWords ≤ p.memCapacity := by
  obtain ⟨hc, ⟨rest, hk, rfl⟩ | ⟨-, -, -, rfl⟩⟩ := Memory.segAlloc_spec ha
  · have hx := (hm.freeIff h).1 (hk ▸ List.mem_cons_self)
    have hl : ({ m with freeStack := rest }.setSlot h (.live (Segment.zeroed len))).liveWords + 0 = m.liveWords + len.toNat :=
      Memory.liveWords_setSlot (m := { m with freeStack := rest }) hx
    exact ⟨hl, by omega⟩
  · have hl : (Memory.mk (m.table ++ [.live (Segment.zeroed len)]) m.freeStack).liveWords = m.liveWords + len.toNat := by
      simp [Memory.liveWords, Slot.words, Segment.zeroed]
    exact ⟨hl, by omega⟩

/-- A free gives back the freed segment's Words and leaves segment 0 alone. -/
theorem Memory.segFree_fitsInParts {m m' : Memory} {p : Params} {h : Word} (hm : m.FitsInParts p)
    (hf : m.segFree h = .ok m') : m'.FitsInParts p ∧ m'.liveWords + m.lenOr0 h = m.liveWords := by
  obtain ⟨hne, ⟨g, hg⟩, rfl⟩ := Memory.segFree_spec hf
  have hx := Memory.liveSeg_eq_some.1 hg
  have hl : (m.setSlot h .free).liveWords + g.len.toNat = m.liveWords + 0 := Memory.liveWords_setSlot hx
  have h0 : (m.setSlot h .free).lenOr0 0#32 = m.lenOr0 0#32 := by
    rw [Memory.lenOr0_setSlot (Memory.liveSeg_lt hg), if_neg (Ne.symm hne)]
  have hg' : m.lenOr0 h = g.len.toNat := Memory.lenOr0_eq_words hx
  have := Memory.liveWords_eq_parts (m.setSlot h .free)
  have := Memory.liveWords_eq_parts m
  have h1 : m.wordsOutsideZero ≤ p.memCapacity := hm.1
  have h2 : m.lenOr0 0#32 ≤ p.memCapacity := hm.2
  refine ⟨⟨?_, h0 ▸ h2⟩, ?_⟩
  · show (m.setSlot h .free).wordsOutsideZero ≤ p.memCapacity
    omega
  · show (m.setSlot h .free).liveWords + m.lenOr0 h = m.liveWords
    omega

/-- An install leaves the other segments alone, and segment 0 no longer than they are together. -/
theorem Memory.segInstall_fitsInParts {m m' : Memory} {p : Params} {h : Word} (hm : m.FitsInParts p)
    (hi : m.segInstall h = .ok m') : m'.FitsInParts p ∧ m'.liveWords = m.wordsAfterInstall h := by
  obtain ⟨g, hg, rfl⟩ := Memory.segInstall_spec hi
  have hw := Memory.liveWords_install hg
  have h0 : (m.setSlot 0#32 (.live g)).lenOr0 0#32 = g.len.toNat := by
    rw [Memory.lenOr0_setSlot (by have := Memory.liveSeg_lt hg; simp; omega), if_pos rfl]
    rfl
  have hl : m.lenOr0 h = g.len.toNat := Memory.lenOr0_eq_words (Memory.liveSeg_eq_some.1 hg)
  have hle : m.lenOr0 h ≤ p.memCapacity := by
    by_cases hz : h = 0#32
    · exact hz ▸ hm.2
    · exact Nat.le_trans (m.lenOr0_le_wordsOutsideZero hz) hm.1
  have hd : m.wordsAfterInstall h = m.liveWords - m.lenOr0 0#32 + m.lenOr0 h := rfl
  have := Memory.liveWords_eq_parts (m.setSlot 0#32 (.live g))
  have := Memory.liveWords_eq_parts m
  have h1 : m.wordsOutsideZero ≤ p.memCapacity := hm.1
  exact ⟨⟨by omega, h0 ▸ hl ▸ hle⟩, hw⟩

/-- Why the model's invariant has (e) in parts only: no install that does what R70's pseudocode says for every live handle keeps
(e) itself, be it this model's or another (notes/assumptions/21.md). -/
theorem install_of_R70_breaks_capacity (install : Params → Memory → Word → Except FailReason Memory)
    (hR70 : ∀ p m h g, m.liveSeg h = some g → install p m h = .ok (m.setSlot 0#32 (.live g))) :
    ∃ p m h m', m.StoreInv p ∧ (∃ g, m.liveSeg 0#32 = some g) ∧ m.liveWords ≤ p.memCapacity ∧
      install p m h = .ok m' ∧ p.memCapacity < m'.liveWords := by
  refine ⟨⟨some ⟨1, 1⟩, .fatal⟩, ⟨[.live ⟨0, []⟩, .live ⟨1, []⟩], []⟩, 1#32, _, ⟨fun h => ?_, by simp, by decide, by decide⟩,
    ⟨_, rfl⟩, by decide, hR70 _ _ _ ⟨1, []⟩ rfl, by decide⟩
  rcases hn : h.toNat with _ | _ | n <;> simp

end Sys2Proof.Machine
end

