-- ==== Sys2Proof/Laws/Step.lean ====
section
/-! SUPPORT. What a step and an instruction can do, said once: later proofs cite these and unfold no meaning. -/

namespace Sys2Proof.Machine

/-- The states an instruction completes in, without a fatal error, a halt or a hold: one case per way to complete. -/
inductive Completes (s : State) : Instr → State → Prop where
  | moved (a b c : RegId) (h : s.readReg c ≠ 0#32) :
      Completes s (.conditionalMove a b c) (s.writeReg a (s.readReg b)).advance
  | notMoved (a b c : RegId) (h : s.readReg c = 0#32) : Completes s (.conditionalMove a b c) s.advance
  | loaded (a b c : RegId) (v : Word) (h : s.mem.segRead (s.readReg b) (s.readReg c) = .ok v) :
      Completes s (.segLoad a b c) (s.writeReg a v).advance
  | stored (a b c : RegId) (m : Memory) (h : s.mem.segWrite (s.readReg a) (s.readReg b) (s.readReg c) = .ok m) :
      Completes s (.segStore a b c) { s with mem := m }.advance
  | added (a b c : RegId) : Completes s (.add a b c) (s.writeReg a (s.readReg b + s.readReg c)).advance
  | multiplied (a b c : RegId) : Completes s (.multiply a b c) (s.writeReg a (s.readReg b * s.readReg c)).advance
  | divided (a b c : RegId) (h : s.readReg c ≠ 0#32) :
      Completes s (.divide a b c) (s.writeReg a (s.readReg b / s.readReg c)).advance
  | nanded (a b c : RegId) : Completes s (.nand a b c) (s.writeReg a (~~~(s.readReg b &&& s.readReg c))).advance
  | mapped (b c : RegId) (h : Word) (m : Memory) (ha : s.mem.segAlloc s.params (s.readReg c) = .ok (h, m)) :
      Completes s (.mapSegment b c) ({ s with mem := m }.writeReg b h).advance
  | unmapped (c : RegId) (m : Memory) (h : s.mem.segFree (s.readReg c) = .ok m) :
      Completes s (.unmapSegment c) { s with mem := m }.advance
  | emitted (c : RegId) (b : Byte) (h : s.params.outputRangePolicy.byteOf (s.readReg c) = some b) :
      Completes s (.output c) (s.emit b).advance
  | received (c : RegId) (x : InResponse) (t : State) (h : s.receive = some (x, t)) :
      Completes s (.input c) (t.writeReg c x.value).advance
  | installed (b c : RegId) (m : Memory) (hb : s.readReg b ≠ 0#32) (h : s.mem.segInstall (s.readReg b) = .ok m) :
      Completes s (.loadProgram b c) ({ s with mem := m }.jumpTo (s.readReg c))
  | jumped (b c : RegId) (h : s.readReg b = 0#32) : Completes s (.loadProgram b c) (s.jumpTo (s.readReg c))
  | immediate (a : RegId) (imm : Imm25) : Completes s (.loadImmediate a imm) (s.writeReg a (immValue imm)).advance

/-- All that an instruction can do: fail, halt, hold or complete. -/
theorem exec_cases {i : Instr} {s t : State} (h : exec i s = .next t) :
    (∃ r, t = s.raiseFatal r) ∨ (i = .halt ∧ t = s.enterHalted) ∨
      (∃ c, i = .input c ∧ s.receive = none ∧ t = s.hold) ∨ Completes s i t := by
  cases i with
  | conditionalMove a b c =>
    simp only [exec, execConditionalMove] at h
    split at h <;> cases h
    · rename_i hz; exact .inr (.inr (.inr (.moved a b c (nonZero_iff.1 hz))))
    · rename_i hz; exact .inr (.inr (.inr (.notMoved a b c (nonZero_eq_false.1 (by simpa using hz)))))
  | segLoad a b c =>
    simp only [exec, execSegLoad] at h
    split at h <;> cases h
    · exact .inl ⟨_, rfl⟩
    · rename_i hv; exact .inr (.inr (.inr (.loaded a b c _ hv)))
  | segStore a b c =>
    simp only [exec, execSegStore] at h
    split at h <;> cases h
    · exact .inl ⟨_, rfl⟩
    · rename_i hv; exact .inr (.inr (.inr (.stored a b c _ hv)))
  | add a b c => cases h; exact .inr (.inr (.inr (.added a b c)))
  | multiply a b c => cases h; exact .inr (.inr (.inr (.multiplied a b c)))
  | divide a b c =>
    simp only [exec, execDivide] at h
    split at h <;> cases h
    · exact .inl ⟨_, rfl⟩
    · rename_i hz; exact .inr (.inr (.inr (.divided a b c hz)))
  | nand a b c => cases h; exact .inr (.inr (.inr (.nanded a b c)))
  | halt => cases h; exact .inr (.inl ⟨rfl, rfl⟩)
  | mapSegment b c =>
    simp only [exec, execMapSegment] at h
    split at h <;> cases h
    · exact .inl ⟨_, rfl⟩
    · rename_i hv; exact .inr (.inr (.inr (.mapped b c _ _ hv)))
  | unmapSegment c =>
    simp only [exec, execUnmapSegment] at h
    split at h <;> cases h
    · exact .inl ⟨_, rfl⟩
    · rename_i hv; exact .inr (.inr (.inr (.unmapped c _ hv)))
  | output c =>
    simp only [exec, execOutput] at h
    split at h <;> cases h
    · exact .inl ⟨_, rfl⟩
    · rename_i hv; exact .inr (.inr (.inr (.emitted c _ hv)))
  | input c =>
    simp only [exec, execInput] at h
    split at h <;> cases h
    · rename_i hv; exact .inr (.inr (.inl ⟨c, rfl, hv, rfl⟩))
    · rename_i hv; exact .inr (.inr (.inr (.received c _ _ hv)))
  | loadProgram b c =>
    simp only [exec, execLoadProgram] at h
    split at h
    · rename_i hz
      split at h <;> cases h
      · exact .inl ⟨_, rfl⟩
      · rename_i hv; exact .inr (.inr (.inr (.installed b c _ (nonZero_iff.1 hz) hv)))
    · rename_i hz
      cases h
      exact .inr (.inr (.inr (.jumped b c (nonZero_eq_false.1 (by simpa using hz)))))
  | loadImmediate a imm => cases h; exact .inr (.inr (.inr (.immediate a imm)))

/-- All that an instruction can do to the store: leave it, release it at the end of the run, or one operation of 20_memory.md.
No instruction touches the parameters. -/
theorem exec_store_cases {i : Instr} {s t : State} (h : exec i s = .next t) :
    t.params = s.params ∧
      (t.mem = s.mem ∨ (t.fsm ≠ .running ∧ t.mem = Memory.empty) ∨
       (∃ h i v, s.mem.segWrite h i v = .ok t.mem) ∨
       (∃ b c k, i = .mapSegment b c ∧ s.mem.segAlloc s.params (s.readReg c) = .ok (k, t.mem)) ∨
       (∃ h, s.mem.segFree h = .ok t.mem) ∨
       (∃ b c, i = .loadProgram b c ∧ s.readReg b ≠ 0#32 ∧ s.mem.segInstall (s.readReg b) = .ok t.mem)) := by
  rcases exec_cases h with ⟨r, rfl⟩ | ⟨-, rfl⟩ | ⟨c, -, -, rfl⟩ | hc
  · simp
  · simp
  · simp
  clear h
  cases hc with
  | stored a b c m hm => exact ⟨rfl, .inr (.inr (.inl ⟨_, _, _, hm⟩))⟩
  | mapped b c k m hm => exact ⟨rfl, .inr (.inr (.inr (.inl ⟨b, c, k, rfl, hm⟩)))⟩
  | unmapped c m hm => exact ⟨rfl, .inr (.inr (.inr (.inr (.inl ⟨_, hm⟩))))⟩
  | installed b c m hb hm => exact ⟨rfl, .inr (.inr (.inr (.inr (.inr ⟨b, c, rfl, hb, hm⟩))))⟩
  | received c x u hu => rcases State.receive_some hu with ⟨b, rest, -, -, rfl⟩ | ⟨-, -, -, rfl⟩ <;> simp
  | _ => simp

/-- All that a step can do. -/
theorem step_cases {s t : State} (h : step s = .next t) :
    (s.fsm ≠ .running ∧ t = s) ∨
      (s.fsm = .running ∧
        ((∃ r, s.fetch = .error r ∧ t = s.raiseFatal r) ∨
         (∃ w op, s.fetch = .ok w ∧ decode w = .invalid op ∧ t = s.raiseFatal .invalidOpcode) ∨
         (∃ w i, s.fetch = .ok w ∧ decode w = .instr i ∧ exec i s = .next t))) := by
  unfold step at h
  split at h
  · rename_i hf; cases h; exact .inl ⟨by simp [hf], rfl⟩
  · rename_i hf; cases h; exact .inl ⟨by simp [hf], rfl⟩
  · rename_i hf
    refine .inr ⟨hf, ?_⟩
    split at h
    · rename_i r hr; cases h; exact .inl ⟨r, hr, rfl⟩
    · rename_i w hw
      unfold execWord at h
      split at h
      · rename_i op hd; cases h; exact .inr (.inl ⟨w, op, hw, hd, rfl⟩)
      · rename_i i hd; exact .inr (.inr ⟨w, i, hw, hd, h⟩)

end Sys2Proof.Machine
end

