-- ==== Sys2Proof/Tests/Slice0.lean ====
section
/-! SUPPORT. Tests against the vectors V<n> of 95_test_vectors.md (expected values are that file's), the smoke test of the
well-formedness checks, and for every statement with hypotheses a concrete input that meets them together. -/

namespace Sys2Proof.Tests

open Sys2Proof.Machine

/-! ## Well-formedness: an ill-formed line for each check -/

theorem test_wf_operand_missing : AsmLine.wellFormed ⟨.add, [1, 2]⟩ = false := by decide
theorem test_wf_operand_left_over : AsmLine.wellFormed ⟨.halt, [0]⟩ = false := by decide
theorem test_wf_register_8 : AsmLine.wellFormed ⟨.out, [8]⟩ = false := by decide
theorem test_wf_immediate_too_wide : AsmLine.wellFormed ⟨.li, [0, 0x2000000]⟩ = false := by decide
theorem test_wf_word_too_wide : AsmLine.wellFormed ⟨.word, [0x100000000]⟩ = false := by decide
theorem test_wf_line_accepted : AsmLine.wellFormed ⟨.li, [7, 0x1FFFFFF]⟩ = true := by decide

/-! ## Decoding: every constructor's word from the tables of 30_encoding.md R110, R111, R120 -/

theorem test_decode_cmov : decode 0x00000053 = .instr (.conditionalMove 1 2 3) := by decide
theorem test_decode_sload : decode 0x10000027 = .instr (.segLoad 0 4 7) := by decide
theorem test_decode_sstore : decode 0x2000013D = .instr (.segStore 4 7 5) := by decide
theorem test_decode_add : decode 0x30000053 = .instr (.add 1 2 3) := by decide
theorem test_decode_mul : decode 0x400000DC = .instr (.multiply 3 3 4) := by decide
theorem test_decode_div : decode 0x50000081 = .instr (.divide 2 0 1) := by decide
theorem test_decode_nand : decode 0x60000092 = .instr (.nand 2 2 2) := by decide
theorem test_decode_halt : decode 0x7FFFFFFF = .instr .halt := by decide
theorem test_decode_map : decode 0x80000021 = .instr (.mapSegment 4 1) := by decide
theorem test_decode_unmap : decode 0x90000002 = .instr (.unmapSegment 2) := by decide
theorem test_decode_out : decode 0xA0000003 = .instr (.output 3) := by decide
theorem test_decode_in : decode 0xB0000001 = .instr (.input 1) := by decide
theorem test_decode_loadprog : decode 0xC000000A = .instr (.loadProgram 1 2) := by decide
theorem test_decode_li : decode 0xDA000064 = .instr (.loadImmediate 5 100) := by decide
/-- V27: bit 24 belongs to the immediate. -/
theorem test_decode_li_bit_24 : decode 0xD1FFFFFF = .instr (.loadImmediate 0 0x1FFFFFF) := by decide
theorem test_decode_invalid_14 : decode 0xEFFFFFFF = .invalid 14 := by decide
theorem test_decode_invalid_15 : decode 0xF0000000 = .invalid 15 := by decide
theorem test_decode_table_word : decodeTableWord 32 0x8000000D = some (.mapSegment 1 5) ∧
    decodeTableWord 32 0xE0000000 = none := by decide

/-- P1, index 7, and P2, index 5, as text; V84 without its blank; `.word` (R124). -/
theorem test_assemble_text :
    assembleText "cmov r4, r5, r1".toList = some 0x00000129 ∧ assembleText "li r5, 100".toList = some 0xDA000064 ∧
      assembleText "map r1,r1".toList = some 0x80000009 ∧ assembleText ".word 0xE0000000".toList = some 0xE0000000 ∧
      assembleText "halt".toList = some 0x70000000 ∧ assembleText "in r1".toList = some 0xB0000001 := by decide
theorem test_assemble_text_refuses :
    assembleText "out r8".toList = none ∧ assembleText "li r0, 0x2000000".toList = none ∧
      assembleText "add r1, r2".toList = none := by decide

/-! ## The codec (V35 to V44) -/

theorem test_getUnsigned : getUnsigned 0xDA000064 4 28 = .ok 13 ∧ getUnsigned 0xDA000064 25 0 = .ok 100 ∧
    getUnsigned 0xDA000064 0 64 = .ok 0 := by decide
theorem test_getSigned : getSigned 0x80 8 0 = .ok (-128) ∧ getSigned 0x7F 8 0 = .ok 127 ∧
    getSigned 0xDA000064 4 28 = .ok (-3) := by decide
theorem test_fitsUnsigned : fitsUnsigned 255 8 = true ∧ fitsUnsigned 256 8 = false ∧ fitsUnsigned 0 0 = true ∧
    fitsUnsigned 1 0 = false := by decide
theorem test_fitsSigned : fitsSigned (-128) 8 = true ∧ fitsSigned 128 8 = false ∧ fitsSigned 0 0 = true ∧
    fitsSigned (-1) 0 = false := by decide
theorem test_setUnsigned : setUnsigned 0 8 24 0x12 = .ok 0x12000000 ∧ setUnsigned 0xFFFFFFFF 8 8 0 = .ok 0xFFFF00FF ∧
    setUnsigned 0 8 0 256 = .error .overflow := by decide
theorem test_setSigned : setSigned 0 8 0 (-1) = .ok 0xFF ∧ setSigned 0 8 0 128 = .error .overflow := by decide
theorem test_loaderWord : loaderWord 0x12 0x34 0x56 0x78 = .ok 0x12345678 := by decide

/-! ## One step of each instruction -/

/-- A run's parameters for the tests: 8 handles, 100 Words. -/
def testParams : Params := ⟨some ⟨7, 100⟩, .fatal⟩

/-- A machine that is about to run the first of the Words, with the registers named set. -/
def machine (words : List Word) (regs : List (RegId × Word)) : State :=
  regs.foldl (fun s r => s.writeReg r.1 r.2)
    { State.blank testParams [] false with mem := ⟨[.live (Segment.ofWords words)], []⟩ }

/-- The same with further slots and a free stack. -/
def withSlots (s : State) (slots : List Slot) (freeStack : List Word) : State :=
  { s with mem := ⟨s.mem.table ++ slots, freeStack⟩ }

/-- Whether the state after one step passes a check. -/
def after (s : State) (check : State → Bool) : Bool :=
  match step s with
  | .next t => check t
  | .fault _ => false
  | .refused _ => false

/-- V45. -/
theorem test_cmov_moves : after (machine [0x00000053] [(1, 5), (2, 9), (3, 1)])
    (fun t => t.readReg 1 == 9 && t.pc == 1) = true := by decide
/-- V46. -/
theorem test_cmov_zero_condition : after (machine [0x00000053] [(1, 5), (2, 9)])
    (fun t => t.readReg 1 == 5 && t.pc == 1) = true := by decide
/-- V75. -/
theorem test_sload : after (withSlots (machine [0x10000027] [(4, 1), (7, 1)]) [.live ⟨2, [(1, 100)]⟩] [])
    (fun t => t.readReg 0 == 100) = true := by decide
/-- V79: liveness is checked before the range. -/
theorem test_sload_freed_handle : after (withSlots (machine [0x10000027] [(4, 1), (7, 5)]) [.free] [1])
    (fun t => t.fsm == .failed .invalidHandle) = true := by decide
/-- V74. -/
theorem test_sstore : after (withSlots (machine [0x2000013D] [(4, 1), (7, 1), (5, 100)]) [.live ⟨2, []⟩] [])
    (fun t => t.mem.table[1]? == some (.live ⟨2, [(1, 100)]⟩)) = true := by decide
/-- The offset just beyond the segment (R66, R67). -/
theorem test_sstore_beyond_end : after (withSlots (machine [0x2000013D] [(4, 1), (7, 2), (5, 100)]) [.live ⟨2, []⟩] [])
    (fun t => t.fsm == .failed .offsetOutOfRange && t.pc == 0) = true := by decide
/-- V50. -/
theorem test_add_wraps : after (machine [0x30000053] [(1, 7), (2, 0xFFFFFFFF), (3, 1)])
    (fun t => t.readReg 1 == 0 && t.pc == 1) = true := by decide
/-- V52: source and destination in one register. -/
theorem test_add_same_register : after (machine [0x30000049] [(1, 3)]) (fun t => t.readReg 1 == 6) = true := by decide
/-- V55. -/
theorem test_mul_low_word : after (machine [0x40000053] [(2, 0x12345678), (3, 0x10)])
    (fun t => t.readReg 1 == 0x23456780) = true := by decide
/-- V58: unsigned. -/
theorem test_div_unsigned : after (machine [0x50000053] [(1, 7), (2, 0x80000000), (3, 0xFFFFFFFF)])
    (fun t => t.readReg 1 == 0 && t.fsm == .running) = true := by decide
/-- V60, and V13 for RUNSTATE. -/
theorem test_div_by_zero : after (machine [0x50000053] [(1, 77), (2, 5)])
    (fun t => t.readReg 1 == 77 && t.runstate == 0x202 && t.pc == 0) = true := by decide
/-- V64. -/
theorem test_nand : after (machine [0x60000053] [(2, 0xF0F0F0F0), (3, 0xFF00FF00)])
    (fun t => t.readReg 1 == 0x0FFF0FFF) = true := by decide
/-- V86. -/
theorem test_halt : after (machine [0x70000000] [])
    (fun t => t.fsm == .halted && t.exitStatus == some 0 && t.pc == 0) = true := by decide
/-- V70. -/
theorem test_map_appends : after (machine [0x80000011] [(1, 2)])
    (fun t => t.readReg 2 == 1 && t.mem.table[1]? == some (.live ⟨2, []⟩)) = true := by decide
/-- V72: the freed handle is reused. -/
theorem test_map_reuses : after (withSlots (machine [0x80000021] [(1, 5)]) [.free, .live ⟨2, []⟩] [1])
    (fun t => t.readReg 4 == 1 && t.mem.freeStack == []) = true := by decide
/-- V71. -/
theorem test_unmap : after (withSlots (machine [0x90000002] [(2, 1)]) [.live ⟨2, []⟩, .live ⟨2, []⟩] [])
    (fun t => t.mem.table[1]? == some .free && t.mem.freeStack == [1]) = true := by decide
/-- V80. -/
theorem test_unmap_zero : after (machine [0x90000000] []) (fun t => t.fsm == .failed .freeSegmentZero) = true := by decide
/-- V97. -/
theorem test_out_255 : after (machine [0xA0000001] [(1, 255)]) (fun t => t.out == [0xFF]) = true := by decide
/-- V98. -/
theorem test_out_256 : after (machine [0xA0000001] [(1, 256)])
    (fun t => t.fsm == .failed .outputOutOfRange && t.out == []) = true := by decide
/-- V101. -/
theorem test_in_eof : after { machine [0xB0000001] [] with eofAtEnd := true }
    (fun t => t.readReg 1 == 0xFFFFFFFF) = true := by decide
/-- V102. -/
theorem test_in_holds : after (machine [0xB0000001] [(1, 7)])
    (fun t => t.pc == 0 && t.runstate == 4 && t.readReg 1 == 7) = true := by decide
/-- V89. -/
theorem test_loadprog_installs :
    after (withSlots (machine [0xC000000A, 0, 0] [(1, 1)]) [.live (Segment.ofWords [0x70000000])] [])
      (fun t => t.mem.table[0]? == some (.live (Segment.ofWords [0x70000000])) && t.pc == 0) = true := by decide
/-- V88: a jump beyond the end completes; the next fetch fails. -/
theorem test_loadprog_jumps : after (machine [0xC0000004] [(4, 100)])
    (fun t => t.pc == 100 && after t (fun u => u.fsm == .failed .fetchOutOfRange)) = true := by decide
/-- V67. -/
theorem test_li : after (machine [0xDFFFFFFF] [(7, 0xFFFFFFFF)]) (fun t => t.readReg 7 == 0x01FFFFFF) = true := by decide
/-- V107. -/
theorem test_invalid_opcode : after (machine [0xE0000000] [])
    (fun t => t.fsm == .failed .invalidOpcode && t.pc == 0) = true := by decide

/-- V108: the trailing byte is dropped. -/
theorem test_boot_drops_trailing : (State.boot testParams [0x70, 0, 0, 0, 0xFF] [] false).mem =
    ⟨[.live ⟨1, [(0, 0x70000000)]⟩], []⟩ := by decide
/-- V105: the machine as `State.reset` leaves it. -/
theorem test_reset_first_step : after State.reset (fun t => t.fsm == .failed .fetchOutOfRange && t.pc == 0) = true := by
  decide

/-! ## Witnesses: an input that meets the hypotheses of each statement -/

theorem wit_EncodeKeepsSignificantBits :
    decode 0x3FFFFE53 = .instr (.add 1 2 3) ∧ decode 0x7FFFFFFF = .instr .halt ∧
      decode 0x8FFFFFCD = .instr (.mapSegment 1 5) ∧ decode 0xAFFFFFFB = .instr (.output 3) ∧
      decode 0xDFFFFFFF = .instr (.loadImmediate 7 0x1FFFFFF) := by decide

theorem wit_StandardFormatFieldPositions :
    (0xCFFFFFFF : Word).toNat / 2 ^ 28 ≠ 13 ∧ (0xE0000000 : Word).toNat / 2 ^ 28 ≠ 13 := by decide

theorem wit_ImmediateFormatEveryBitSignificant :
    (0xD0000000 : Word).toNat / 2 ^ 28 = 13 ∧ (0xDFFFFFFF : Word).toNat / 2 ^ 28 = 13 := by decide

theorem wit_IgnoredBitsDoNotMatter :
    (0x30000053 : Word).toNat / 2 ^ 28 ≠ 13 ∧ (0x3FFFFE53 : Word).toNat / 2 ^ 28 = (0x30000053 : Word).toNat / 2 ^ 28 ∧
      (0x3FFFFE53 : Word).toNat % 2 ^ 9 = (0x30000053 : Word).toNat % 2 ^ 9 := by decide

/-- Both clauses at the boundary between opcode 13 and opcode 14. -/
theorem wit_InvalidOpcodesFailOthersDecode :
    14 ≤ (0xE0000000 : Word).toNat / 2 ^ 28 ∧ (0xDFFFFFFF : Word).toNat / 2 ^ 28 < 14 := by decide

/-- The last operand admitted and the first refused, for a data Word, an immediate and a register. -/
theorem wit_AssemblerGivesCanonicalWords :
    (0xFFFFFFFF : Nat) < 2 ^ 32 ∧ AsmLine.wellFormed ⟨.word, [0xFFFFFFFF]⟩ = true ∧
      AsmLine.wellFormed ⟨.word, [0x100000000]⟩ = false ∧ assemble ⟨.li, [7, 0x01FFFFFF]⟩ ≠ none ∧
      assemble ⟨.li, [7, 0x02000000]⟩ = none ∧ assemble ⟨.out, [8]⟩ = none := by decide

/-- Both clauses at the ends of the range, for a field at the top of the container and for the field of no bits (entry 18). -/
theorem wit_SetUnsignedReplacesFieldOnly :
    8 ≤ 64 ∧ 8 + 56 ≤ 64 ∧ ¬((0 : Int) ≤ -1 ∧ (-1 : Int) < 2 ^ 8) ∧ ¬((0 : Int) ≤ 256 ∧ (256 : Int) < 2 ^ 8) ∧
      ((0 : Int) ≤ 255 ∧ (255 : Int) < 2 ^ 8) ∧ ((0 : Int) ≤ 0 ∧ (0 : Int) < 2 ^ 0) ∧ (0 < 56 ∨ 64 ≤ 0) := by decide

/-- Both clauses at the ends of the range, and the field of no bits. -/
theorem wit_SetSignedReplacesFieldOnly :
    8 ≤ 64 ∧ 8 + 56 ≤ 64 ∧
      (∀ v ∈ [(128 : Int), -129], ¬((8 = 0 ∧ v = 0) ∨ (1 ≤ 8 ∧ -(2 ^ (8 - 1)) ≤ v ∧ v < 2 ^ (8 - 1)))) ∧
      (∀ v ∈ [(127 : Int), -128], (8 = 0 ∧ v = 0) ∨ (1 ≤ 8 ∧ -(2 ^ (8 - 1)) ≤ v ∧ v < 2 ^ (8 - 1))) ∧
      ¬((0 = 0 ∧ (1 : Int) = 0) ∨ (1 ≤ 0 ∧ -(2 ^ (0 - 1)) ≤ (1 : Int) ∧ (1 : Int) < 2 ^ (0 - 1))) ∧
      (0 < 56 ∨ 64 ≤ 0) := by decide

theorem wit_GetFieldsAreSlices : 64 ≤ 64 ∧ 64 + 0 ≤ 64 ∧ 0 ≤ 64 ∧ 0 + 64 ≤ 64 := by decide

/-- The last Word of a 14-byte image (V4). -/
theorem wit_ImageFramingByFours : 2 < ([1, 2, 3, 4, 5, 6, 7, 8, 9, 10, 11, 12, 13, 14] : List Byte).length / 4 := by decide

/-- The longest image a segment can hold, in a store of just that capacity; and a small one. -/
theorem wit_BootLoadsImage :
    ((List.replicate (4 * (2 ^ 32 - 1)) (0 : Byte)).length / 4 ≤ 2 ^ 32 - 1 ∧
      (List.replicate (4 * (2 ^ 32 - 1)) (0 : Byte)).length / 4 ≤ (⟨some ⟨0, 2 ^ 32 - 1⟩, .fatal⟩ : Params).memCapacity) ∧
    (([0x70, 0, 0, 0] : List Byte).length / 4 ≤ 2 ^ 32 - 1 ∧ ([0x70, 0, 0, 0] : List Byte).length / 4 ≤ testParams.memCapacity) := by
  refine ⟨?_, by decide⟩
  rw [List.length_replicate]
  decide

/-- Either disjunct: an image of 2^32 Words, and one Word in a store of none. -/
theorem wit_BootFailsWithoutRoom :
    2 ^ 32 - 1 < (List.replicate (4 * 2 ^ 32) (0 : Byte)).length / 4 ∧
      (⟨some ⟨0, 0⟩, .fatal⟩ : Params).memCapacity < ([0x70, 0, 0, 0] : List Byte).length / 4 := by
  refine ⟨?_, by decide⟩
  rw [List.length_replicate]
  decide

theorem wit_ShortImageFailsAtFirstFetch : ([1, 2, 3] : List Byte).length < 4 ∧ ([] : List Byte).length < 4 := by decide

theorem wit_StepRunsDecodedInstruction :
    (machine [0x30000053] []).fsm = .running ∧ (machine [0x30000053] []).mem.segRead 0 0 = .ok 0x30000053 ∧
      decode 0x30000053 = .instr (.add 1 2 3) := ⟨rfl, rfl, by decide⟩

theorem wit_InvalidOpcodeStepFails :
    (machine [0xE0000000] []).fsm = .running ∧ (machine [0xE0000000] []).mem.segRead 0 0 = .ok 0xE0000000 ∧
      14 ≤ (0xE0000000 : Word).toNat / 2 ^ 28 := ⟨rfl, rfl, by decide⟩

theorem wit_FetchBeyondSegmentZeroFails :
    State.reset.fsm = .running ∧ State.reset.mem.segLen 0 = .ok 0 ∧ (0 : Word) ≤ State.reset.pc := ⟨rfl, rfl, by decide⟩

theorem wit_TerminalStatesNeverLeft :
    (State.reset.raiseFatal .fetchOutOfRange).fsm ≠ .running ∧ State.reset.enterHalted.fsm ≠ .running := by decide

/-- A store of one canonical segment meets the store's invariant. -/
theorem storeInv_one (p : Params) (g : Segment) (hg : g.wf = true) : (Memory.mk [.live g] []).StoreInv p := by
  refine ⟨fun h => ⟨fun hh => (by cases hh), fun hh => ?_⟩, by simp, ?_, by simp [Memory.wf, Slot.wf, hg]⟩
  · rcases hn : h.toNat with _ | n <;> simp [hn] at hh
  · rcases p with ⟨_ | l, o⟩ <;> simp [Params.maxHandles]

/-- So does one of two, where two handles are allowed. -/
theorem storeInv_two (p : Params) (hp : 2 ≤ p.maxHandles) (g g' : Segment) (hg : g.wf = true) (hg' : g'.wf = true) :
    (Memory.mk [.live g, .live g'] []).StoreInv p := by
  refine ⟨fun h => ⟨fun hh => (by cases hh), fun hh => ?_⟩, by simp, by simpa using hp, by simp [Memory.wf, Slot.wf, hg, hg']⟩
  rcases hn : h.toNat with _ | _ | n <;> simp [hn] at hh

/-- So does one with a freed slot. -/
theorem storeInv_freed (p : Params) (hp : 2 ≤ p.maxHandles) (g : Segment) (hg : g.wf = true) :
    (Memory.mk [.live g, .free] [1]).StoreInv p := by
  refine ⟨fun h => ⟨fun hh => ?_, fun hh => ?_⟩, by simp, by simpa using hp, by simp [Memory.wf, Slot.wf, hg]⟩
  · simp at hh; subst hh; rfl
  · rcases hn : h.toNat with _ | _ | n
    · simp [hn] at hh
    · simp only [List.mem_singleton]; exact BitVec.eq_of_toNat_eq (by simpa using hn)
    · simp [hn] at hh

/-- The machine with one segment meets the invariant. -/
theorem machine_inv (words : List Word) (regs : List (RegId × Word))
    (hm : (machine words regs).mem = ⟨[.live (Segment.ofWords words)], []⟩) (hf : (machine words regs).fsm = .running)
    (hi : (machine words regs).inWait = false) (hw : (Segment.ofWords words).wf = true)
    (hc : (machine words regs).FitsCapacity) : (machine words regs).Inv :=
  ⟨by rw [hm]; exact storeInv_one _ _ hw, .of_liveWords hc, fun _ => ⟨_, by rw [hm]; rfl⟩, fun h => absurd hf h,
    fun h => by rw [hi] at h; cases h⟩

/-- With a segment 1 as well. -/
theorem two_inv (s : State) (g g' : Segment) (hm : s.mem = ⟨[.live g, .live g'], []⟩) (hp : 2 ≤ s.params.maxHandles)
    (hf : s.fsm = .running) (hi : s.inWait = false) (hg : g.wf = true) (hg' : g'.wf = true)
    (hc : s.mem.FitsInParts s.params) : s.Inv :=
  ⟨by rw [hm]; exact storeInv_two _ hp _ _ hg hg', hc, fun _ => ⟨_, by rw [hm]; rfl⟩, fun h => absurd hf h,
    fun h => by rw [hi] at h; cases h⟩

/-- A machine about to add. -/
def adding : State := machine [0x30000053] [(2, 4), (3, 5)]

theorem adding_inv : adding.Inv := machine_inv _ _ rfl rfl rfl (by decide) (by decide)

theorem wit_HostDeliveryKeepsInvariant : adding.Inv ∧ (adding.hostDeliver (.byte 7)).inp = [7] := ⟨adding_inv, rfl⟩

/-- A machine about to divide by zero (V60). -/
def dividing : State := machine [0x50000053] [(1, 77), (2, 5)]

theorem wit_FailingStepIsPrecise :
    dividing.fsm = .running ∧ ∃ t, step dividing = .next t ∧ t.fsm = .failed .divideByZero := ⟨rfl, _, rfl, rfl⟩

/-- One state in which a check fails and one in which none does. -/
theorem wit_FirstFatalCheckIsReported :
    (dividing.fsm = .running ∧ dividing.mem.StoreInv dividing.params ∧ dividing.stepFatal = some .divideByZero) ∧
      (adding.fsm = .running ∧ adding.mem.StoreInv adding.params ∧ adding.stepFatal = none) :=
  ⟨⟨rfl, storeInv_one _ _ (by decide), by decide⟩, rfl, storeInv_one _ _ (by decide), by decide⟩

/-- V72's start, about to map; V93's self-jump at index 0. -/
def mapping : State := withSlots (machine [0x80000021] [(1, 5)]) [.free] [1]
def jumping : State := machine [0xC0000004] [(1, 1)]

/-- Each outcome of R150: PC + 1, LoadProgram's target, and a failing step. -/
theorem wit_PcUpdateAfterDispatch :
    (adding.mem.segRead 0 adding.pc = .ok 0x30000053 ∧ ∃ t, step adding = .next t ∧ t.inWait = false) ∧
      (jumping.mem.segRead 0 jumping.pc = .ok 0xC0000004 ∧ decode 0xC0000004 = .instr (.loadProgram 0 4) ∧
        ∃ t, step jumping = .next t ∧ t.inWait = false ∧ t.fsm = .running) ∧
      (dividing.mem.segRead 0 dividing.pc = .ok 0x50000053 ∧ ∃ t, step dividing = .next t ∧ t.inWait = false ∧
        t.fsm ≠ .running) :=
  ⟨⟨rfl, _, rfl, rfl⟩, ⟨rfl, by decide, _, rfl, rfl, rfl⟩, rfl, _, rfl, rfl, by decide⟩

/-- A changed register for each line of the table that writes one. -/
theorem wit_RegisterWriteTable :
    adding.fsm = .running ∧ mapping.fsm = .running ∧
      (∃ t, exec (.conditionalMove 1 2 3) adding = .next t ∧ t.readReg 1 ≠ adding.readReg 1) ∧
      (∃ t, exec (.add 1 2 3) adding = .next t ∧ t.readReg 1 ≠ adding.readReg 1) ∧
      (∃ t, exec (.divide 1 3 2) adding = .next t ∧ t.readReg 1 ≠ adding.readReg 1) ∧
      (∃ t, exec (.mapSegment 4 1) mapping = .next t ∧ t.readReg 4 ≠ mapping.readReg 4) ∧
      (∃ t, exec (.input 1) { adding with inp := [0x41] } = .next t ∧ t.readReg 1 ≠ adding.readReg 1) :=
  ⟨rfl, rfl, ⟨_, rfl, by decide⟩, ⟨_, rfl, by decide⟩, ⟨_, rfl, by decide⟩, ⟨_, rfl, by decide⟩, _, rfl, by decide⟩

/-- V89, with a segment 1 of two Words. -/
def installing : State := withSlots (machine [0xC000000A] [(1, 1)]) [.live (Segment.ofWords [0x70000000, 5])] []

theorem installing_inv : installing.Inv := two_inv _ _ _ rfl (by decide) rfl rfl (by decide) (by decide) (by decide)

/-- The same machine where MemCapacity is the 3 Words that are live; the install makes them 4. -/
def overfilling : State := { installing with params := ⟨some ⟨7, 3⟩, .fatal⟩ }

theorem overfilling_inv : overfilling.Inv :=
  two_inv _ _ _ rfl (by decide) rfl rfl (by decide) (by decide) (by decide)

/-- A step that keeps R45 (e), and the install that does not. -/
theorem wit_StepKeepsInvariant :
    (adding.Inv ∧ ∃ t, step adding = .next t) ∧ overfilling.Inv ∧ ∃ t, step overfilling = .next t :=
  ⟨⟨adding_inv, _, rfl⟩, overfilling_inv, _, rfl⟩

theorem wit_OnlyInstallChangesLength :
    installing.mem.StoreInv installing.params ∧ installing.mem.segLen 0 = .ok 1 ∧
      ∃ t, exec (.loadProgram 1 2) installing = .next t ∧ t.fsm = .running ∧ t.mem.segLen 0 = .ok 2 :=
  ⟨installing_inv.store, rfl, _, rfl, rfl, rfl⟩

theorem mapping_store : mapping.mem.StoreInv mapping.params := storeInv_freed _ (by decide) _ (by decide)

theorem wit_CapacityKeptExceptByInstall :
    (mapping.mem.StoreInv mapping.params ∧ mapping.FitsCapacity ∧ (∀ b c, Instr.mapSegment 4 1 ≠ .loadProgram b c) ∧
      ∃ t, exec (.mapSegment 4 1) mapping = .next t) ∧
    (installing.mem.StoreInv installing.params ∧ installing.FitsCapacity ∧ installing.readReg 1 ≠ 0 ∧
      installing.mem.wordsAfterInstall (installing.readReg 1) ≤ installing.params.memCapacity ∧
      ∃ t, exec (.loadProgram 1 2) installing = .next t) ∧
    (overfilling.Inv ∧ ∃ t, step overfilling = .next t) :=
  ⟨⟨mapping_store, by decide, fun _ _ h => (by cases h), _, rfl⟩,
    ⟨installing_inv.store, by decide, by decide, by decide, _, rfl⟩, overfilling_inv, _, rfl⟩

/-- A byte emitted; a value too large; an instruction that is no Output. -/
theorem wit_OutputHistoryOnlyGrows :
    (∃ t, exec (.output 2) adding = .next t ∧ t.fsm = .running) ∧
      (∃ t, exec (.output 1) (machine [0xA0000001] [(1, 256)]) = .next t ∧ t.fsm ≠ .running) ∧
      (∃ t, exec (.add 1 2 3) adding = .next t) ∧ ∃ t, adding.RunsTo 2 t :=
  ⟨⟨_, rfl, rfl⟩, ⟨_, rfl, by decide⟩, ⟨_, rfl⟩, _, rfl⟩

theorem wit_EofRepeatsForever :
    ∃ s t : State, s.inp = [] ∧ s.eofAtEnd = true ∧ s.RunsTo 1 t ∧ t.readReg 1 = 0xFFFFFFFF :=
  ⟨{ machine [0xB0000001] [] with eofAtEnd := true }, _, rfl, rfl, rfl, by decide⟩

theorem wit_HoldLastsUntilDelivery :
    (machine [0xB0000001] []).fsm = .running ∧ (machine [0xB0000001] []).mem.segRead 0 0 = .ok 0xB0000001 ∧
      decode 0xB0000001 = .instr (.input 1) ∧ (machine [0xB0000001] []).inp = [] ∧
      (machine [0xB0000001] []).eofAtEnd = false := ⟨rfl, rfl, by decide, rfl, rfl⟩

theorem wit_SelfJumpNeverTerminates :
    jumping.fsm = .running ∧ jumping.mem.segRead 0 jumping.pc = .ok 0xC0000004 ∧
      decode 0xC0000004 = .instr (.loadProgram 0 4) ∧ jumping.readReg 0 = 0 ∧ jumping.readReg 4 = jumping.pc :=
  ⟨rfl, rfl, by decide, rfl, rfl⟩

/-- Each clause: a handle beyond the table, the offset just beyond a segment of two Words, and its last offset. -/
theorem wit_StoreThenLoad :
    (Memory.mk [.live ⟨1, []⟩, .live ⟨2, []⟩] []).wf = true ∧
      (Memory.mk [.live ⟨1, []⟩, .live ⟨2, []⟩] []).liveSeg 2 = none ∧
      (Memory.mk [.live ⟨1, []⟩, .live ⟨2, []⟩] []).segLen 1 = .ok 2 ∧ (2 : Word) ≤ 2 ∧ (1 : Word) < 2 :=
  ⟨by decide, rfl, rfl, by decide, by decide⟩

/-- Each reason to fail, at its boundary; and the two ways to succeed, one with the last Word of the capacity. -/
theorem wit_AllocGivesFreshZeroSegment :
    (adding.mem.StoreInv testParams ∧ testParams.memCapacity < adding.mem.liveWords + (100 : Word).toNat) ∧
      (adding.mem.StoreInv ⟨some ⟨0, 100⟩, .fatal⟩ ∧ adding.mem.freeStack = [] ∧
        adding.mem.table.length = (⟨some ⟨0, 100⟩, .fatal⟩ : Params).maxHandles) ∧
      (∃ m, adding.mem.segAlloc testParams 99 = .ok (1, m)) ∧
      (mapping.mem.StoreInv testParams ∧ ∃ m, mapping.mem.segAlloc testParams 99 = .ok (1, m)) :=
  ⟨⟨storeInv_one _ _ (by decide), by decide⟩, ⟨storeInv_one _ _ (by decide), rfl, by decide⟩, ⟨_, rfl⟩,
    storeInv_freed _ (by decide) _ (by decide), _, rfl⟩

theorem wit_FreedHandleIsInvalidUntilReused :
    ∃ m' m'', installing.mem.segFree 1 = .ok m' ∧ m'.segAlloc testParams 3 = .ok (1, m'') := ⟨_, _, rfl, rfl⟩

theorem wit_InstalledCopyIsIndependent :
    (1 : Word) ≠ 0 ∧ ∃ m' m1 m2 m3, installing.mem.segInstall 1 = .ok m' ∧ m'.segWrite 1 1 9 = .ok m1 ∧
      m'.segWrite 0 1 9 = .ok m2 ∧ m'.segFree 1 = .ok m3 := ⟨by decide, _, _, _, _, rfl, rfl, rfl, rfl⟩

theorem wit_EqualReadsMeanEqualSegments :
    (Segment.ofWords [0, 7]).wf = true ∧ (Segment.mk 2 [(1, 7)]).wf = true ∧
      (Segment.ofWords [0, 7]).len = (Segment.mk 2 [(1, 7)]).len ∧
      ∀ i, (Segment.ofWords [0, 7]).read i = (Segment.mk 2 [(1, 7)]).read i :=
  ⟨by decide, by decide, rfl, fun _ => rfl⟩

theorem wit_DivideResult : adding.readReg 3 ≠ 0 ∧ dividing.readReg 3 = 0 := by decide

theorem wit_SubtractionSequence :
    (4 : RegId) ≠ 2 ∧ (4 : RegId) ≠ 5 ∧ (machine [0] [(2, 9), (3, 4), (5, 1)]).readReg 5 = 1 := by decide

/-- Each clause: the last Word of segment 1, the offset beyond it, and a handle that is freed. -/
theorem wit_SegLoadResult :
    ((installing.writeReg 2 1).mem.segLen ((installing.writeReg 2 1).readReg 1) = .ok 2 ∧
      (installing.writeReg 2 1).readReg 2 < 2) ∧
    ((installing.writeReg 2 2).mem.segLen ((installing.writeReg 2 2).readReg 1) = .ok 2 ∧
      2 ≤ (installing.writeReg 2 2).readReg 2) ∧
    (mapping.writeReg 1 1).mem.liveSeg ((mapping.writeReg 1 1).readReg 1) = none :=
  ⟨⟨rfl, by decide⟩, ⟨rfl, by decide⟩, rfl⟩

/-- The same clauses, the handle in register 1 and the offset in register 2. -/
theorem wit_SegStoreResult :
    ((installing.writeReg 2 1).mem.wf = true ∧ (installing.writeReg 2 1).mem.segLen ((installing.writeReg 2 1).readReg 1) = .ok 2 ∧
      (installing.writeReg 2 1).readReg 2 < 2) ∧
    ((installing.writeReg 2 2).mem.segLen ((installing.writeReg 2 2).readReg 1) = .ok 2 ∧
      2 ≤ (installing.writeReg 2 2).readReg 2) ∧
    ((mapping.writeReg 1 1).mem.wf = true ∧ (mapping.writeReg 1 1).mem.liveSeg ((mapping.writeReg 1 1).readReg 1) = none) :=
  ⟨⟨by decide, rfl, by decide⟩, ⟨rfl, by decide⟩, by decide, rfl⟩

/-- Both ways to find a handle, the free stack and the table's end, and both ways to fail, at the boundary. -/
theorem wit_MapSegmentResult :
    (mapping.mem.StoreInv mapping.params ∧ mapping.mem.liveWords + (mapping.readReg 1).toNat ≤ mapping.params.memCapacity ∧
      mapping.mem.freeStack ≠ []) ∧
    (adding.mem.StoreInv adding.params ∧ adding.mem.liveWords + (adding.readReg 2).toNat ≤ adding.params.memCapacity ∧
      adding.mem.table.length < adding.params.maxHandles) ∧
    ((adding.writeReg 2 100).mem.StoreInv adding.params ∧
      adding.params.memCapacity < adding.mem.liveWords + ((adding.writeReg 2 100).readReg 2).toNat) ∧
    (adding.mem.StoreInv ⟨some ⟨0, 100⟩, .fatal⟩ ∧ adding.mem.freeStack = [] ∧
      adding.mem.table.length = (⟨some ⟨0, 100⟩, .fatal⟩ : Params).maxHandles) :=
  ⟨⟨mapping_store, by decide, by decide⟩, ⟨adding_inv.store, by decide, by decide⟩, ⟨adding_inv.store, by decide⟩,
    storeInv_one _ _ (by decide), rfl, by decide⟩

/-- Each clause: a live handle, handle 0, and a freed handle. -/
theorem wit_UnmapSegmentResult :
    (installing.readReg 1 ≠ 0 ∧ installing.mem.segLen (installing.readReg 1) = .ok 2) ∧ installing.readReg 0 = 0 ∧
      ((mapping.writeReg 1 1).readReg 1 ≠ 0 ∧ (mapping.writeReg 1 1).mem.liveSeg ((mapping.writeReg 1 1).readReg 1) = none) :=
  ⟨⟨by decide, rfl⟩, by decide, by decide, rfl⟩

theorem wit_LoadProgramJumpResult : jumping.readReg 0 = 0 := by decide

/-- Either clause: a live handle and a freed one. -/
theorem wit_LoadProgramInstallResult :
    (installing.readReg 1 ≠ 0 ∧ installing.mem.segLen (installing.readReg 1) = .ok 2) ∧
      ((mapping.writeReg 1 1).readReg 1 ≠ 0 ∧ (mapping.writeReg 1 1).mem.liveSeg ((mapping.writeReg 1 1).readReg 1) = none) :=
  ⟨⟨by decide, rfl⟩, by decide, rfl⟩

/-- An install completes also beyond MemCapacity, 4 Words where the run has 3 (R70, R234; notes/assumptions/21.md). -/
theorem test_install_beyond_capacity : after overfilling
    (fun t => t.fsm == .running && t.mem.liveWords == 4) = true := by decide

/-- Both clauses at 255 and 256, and 256 under MaskLow8. -/
theorem wit_OutputResult :
    ((machine [] [(1, 255)]).readReg 1).toNat ≤ 255 ∧
      ((machine [] [(1, 256)]).params.outputRangePolicy = .fatal ∧ 255 < ((machine [] [(1, 256)]).readReg 1).toNat) ∧
      ({ machine [] [(1, 256)] with params := ⟨none, .maskLow8⟩ }.params.outputRangePolicy = .maskLow8) := by decide

/-- Either response. -/
theorem wit_InputResult :
    ({ adding with inp := [0xFF] }.inp ≠ []) ∧ ({ adding with eofAtEnd := true }.eofAtEnd = true) := by decide

/-- The store into segment 0 at its last index; the install with a jump to its last Word. -/
theorem wit_NewCodeIsFetchedNext :
    ((machine [0x20000000, 0] [(1, 1)]).mem.wf = true ∧ (machine [0x20000000, 0] [(1, 1)]).readReg 0 = 0 ∧
      (machine [0x20000000, 0] [(1, 1)]).mem.segLen 0 = .ok 2 ∧ (machine [0x20000000, 0] [(1, 1)]).readReg 1 < 2) ∧
    ((installing.writeReg 2 1).readReg 1 ≠ 0 ∧
      (installing.writeReg 2 1).mem.segRead ((installing.writeReg 2 1).readReg 1) ((installing.writeReg 2 1).readReg 2) =
        .ok 5) :=
  ⟨⟨by decide, by decide, rfl, by decide⟩, by decide, rfl⟩

end Sys2Proof.Tests
end

/-! The state, its reset and its invariant (10_state.md): RUNSTATE and the exit status, the terminal states, the registers an
instruction writes, and what every step keeps. -/

namespace Sys2Proof.Machine

/-! ## RUNSTATE and the exit status -/

/-- RUNSTATE as a number: its three fields at their positions and nothing else (R40). -/
theorem State.runstate_toNat (s : State) :
    s.runstate.toNat = 256 * s.fsm.reasonBits.toNat + 4 * s.inWaitBit.toNat + s.fsm.stateBits.toNat := by
  have hw := s.inWaitBit.isLt
  have hs := s.fsm.stateBits.isLt
  simp only [State.runstate, BitVec.toNat_append, BitVec.toNat_ofNat, Nat.zero_mod, Nat.zero_shiftLeft, Nat.zero_or]
  rw [← Nat.shiftLeft_add_eq_or_of_lt (by decide : 0 < 2 ^ 5), ← Nat.shiftLeft_add_eq_or_of_lt hw,
    ← Nat.shiftLeft_add_eq_or_of_lt hs]
  simp only [Nat.shiftLeft_eq]
  omega

/-- INWAIT reads 1 just where the wait indication is set in a Running state (R40). -/
theorem State.inWaitBit_toNat (s : State) :
    s.inWaitBit.toNat = if s.inWait = true ∧ s.fsm = .running then 1 else 0 := by
  unfold State.inWaitBit
  cases s.inWait <;> cases s.fsm <;> rfl

/-- Settles O60: each field is cut out of the sum of `State.runstate_toNat`. -/
theorem runstateLayout : Obligations.RunstateLayout := by
  intro s
  have hw := s.inWaitBit.isLt
  have hs : s.fsm.stateBits.toNat < 4 := s.fsm.stateBits.isLt
  have hr : s.fsm.reasonBits.toNat < 256 := s.fsm.reasonBits.isLt
  rw [s.runstate_toNat]
  refine ⟨?_, ?_, by omega, ?_, by omega⟩
  · calc _ = s.fsm.stateBits.toNat := by omega
      _ = _ := by cases s.fsm <;> rfl
  · rw [← s.inWaitBit_toNat]
    omega
  · calc _ = s.fsm.reasonBits.toNat := by omega
      _ = _ := by
        cases s.fsm with
        | running => rfl
        | halted => rfl
        | failed r => cases r <;> rfl

theorem failExitStatus_ne_zero (code : BitVec 8) : Config.failExitStatus code ≠ 0 := by
  unfold Config.failExitStatus
  split_ifs with h
  · decide
  · exact h

/-- Settles O59, a case for each state of the FSM. -/
theorem exitStatusByFsm : Obligations.ExitStatusByFsm := by
  intro s
  cases hf : s.fsm with
  | running => simp [State.exitStatus, hf]
  | halted => simp [State.exitStatus, hf]
  | failed r => exact ⟨by simp [State.exitStatus, hf], failExitStatus_ne_zero r.code⟩

/-! ## Terminal states -/

theorem step_of_not_running {s : State} (hf : s.fsm ≠ .running) : step s = .next s := by
  unfold step
  split
  · rfl
  · rfl
  · contradiction

/-- Settles O23, by induction on the number of steps. -/
theorem terminalStatesNeverLeft : Obligations.TerminalStatesNeverLeft := by
  intro s hf k
  induction k with
  | zero => exact State.runsTo_zero.2 rfl
  | succ k ih => exact (State.runsTo_succ (step_of_not_running hf)).2 ih

/-! ## What completing an instruction does to the FSM and to the registers -/

/-- Receiving takes a byte off IN and touches nothing else of the state. -/
theorem State.receive_frame {s u : State} {x : InResponse} (h : s.receive = some (x, u)) :
    u.fsm = s.fsm ∧ ∀ r, u.readReg r = s.readReg r := by
  obtain ⟨b, rest, -, -, rfl⟩ | ⟨-, -, -, rfl⟩ := State.receive_some h
  · exact ⟨rfl, State.readReg_withInp s rest⟩
  · exact ⟨rfl, fun _ => rfl⟩

/-- An instruction that completes leaves the FSM where it is, and the core is not waiting afterwards (R40, R150). -/
theorem Completes.fsm_inWait {s t : State} {i : Instr} (h : Completes s i t) : t.fsm = s.fsm ∧ t.inWait = false := by
  cases h with
  | received c x u hu => exact ⟨(State.receive_frame hu).1, rfl⟩
  | _ => exact ⟨rfl, rfl⟩

/-- Only the register written can read differently. -/
theorem State.eq_of_readReg_writeReg_ne {s : State} {r d : RegId} {v : Word}
    (h : (s.writeReg d v).readReg r ≠ s.readReg r) : r = d := by
  by_contra hne
  exact h (State.readReg_writeReg_other s hne v)

/-- Settles O30: failing, halting and holding write no register, and each way to complete writes the one of R31's table. -/
theorem registerWriteTable : Obligations.RegisterWriteTable := by
  intro i s t hrun hex r hr
  obtain ⟨_, rfl⟩ | ⟨-, rfl⟩ | ⟨_, -, -, rfl⟩ | hc := exec_cases hex
  · exact absurd rfl hr
  · exact absurd rfl hr
  · exact absurd rfl hr
  have hfsm : t.fsm = .running := hc.fsm_inWait.1.trans hrun
  clear hex
  cases hc with
  | moved a b c hz => exact ⟨State.eq_of_readReg_writeReg_ne hr, hz⟩
  | loaded => exact ⟨State.eq_of_readReg_writeReg_ne hr, hfsm⟩
  | divided => exact ⟨State.eq_of_readReg_writeReg_ne hr, hfsm⟩
  | mapped b c h m ha => exact ⟨State.eq_of_readReg_writeReg_ne (s := { s with mem := m }) hr, hfsm⟩
  | received c x u hu =>
    rw [← (State.receive_frame hu).2 r] at hr
    exact ⟨State.eq_of_readReg_writeReg_ne hr, by simp [hu]⟩
  | added => exact State.eq_of_readReg_writeReg_ne hr
  | multiplied => exact State.eq_of_readReg_writeReg_ne hr
  | nanded => exact State.eq_of_readReg_writeReg_ne hr
  | immediate => exact State.eq_of_readReg_writeReg_ne hr
  | notMoved => exact absurd rfl hr
  | stored => exact hr rfl
  | unmapped => exact hr rfl
  | emitted => exact hr rfl
  | installed => exact hr rfl
  | jumped => exact hr rfl

/-! ## Every operation of the store keeps its invariant -/

theorem Memory.StoreInv.empty (p : Params) : Memory.empty.StoreInv p :=
  ⟨fun _ => by simp [Memory.empty], List.nodup_nil, Nat.zero_le _, Memory.empty_wf⟩

/-- A store without a free slot and with an empty free stack meets R45 (a) trivially. -/
theorem Memory.StoreInv.of_no_free {p : Params} {table : List Slot} (hfree : .free ∉ table)
    (hslots : table.length ≤ p.maxHandles) (hwf : (Memory.mk table []).wf = true) : (Memory.mk table []).StoreInv p :=
  ⟨fun _ => ⟨fun h => absurd h List.not_mem_nil, fun h => absurd (List.mem_of_getElem? h) hfree⟩, List.nodup_nil, hslots, hwf⟩

section StoreOperations

variable {m m' : Memory} {p : Params} {h i v len : Word}

theorem Memory.StoreInv.not_mem_freeStack {g : Segment} (hm : m.StoreInv p) (hg : m.liveSeg h = some g) :
    h ∉ m.freeStack := by
  rw [hm.freeIff, Memory.liveSeg_eq_some.1 hg]
  simp

/-- Replacing the content of a live slot keeps the invariant. -/
theorem Memory.StoreInv.setLive {g g' : Segment} (hm : m.StoreInv p) (hg : m.liveSeg h = some g) (hwf : g'.wf = true) :
    (m.setSlot h (.live g')).StoreInv p where
  freeIff k := by
    rw [Memory.setSlot_get (Memory.liveSeg_lt hg), Memory.setSlot_freeStack]
    by_cases hk : k = h
    · simp [hk, hm.not_mem_freeStack hg]
    · simp [hk, hm.freeIff]
  nodup := hm.nodup
  slots := by simpa using hm.slots
  canonical := Memory.wf_setSlot hm.canonical hwf

theorem Memory.StoreInv.segWrite (hm : m.StoreInv p) (hw : m.segWrite h i v = .ok m') : m'.StoreInv p := by
  obtain ⟨g, g', hg, hg', rfl⟩ := Memory.segWrite_spec hw
  exact hm.setLive hg ((Segment.write_spec hg').2.2 (Memory.wf_liveSeg hm.canonical hg)).1

/-- Taking the top of the free stack and putting a segment in its slot keeps the invariant. -/
theorem Memory.StoreInv.reuse {rest : List Word} {g : Segment} (hm : m.StoreInv p) (hfs : m.freeStack = h :: rest)
    (hwf : g.wf = true) : ({ m with freeStack := rest }.setSlot h (.live g)).StoreInv p := by
  have hfree : m.table[h.toNat]? = some .free := (hm.freeIff h).1 (by simp [hfs])
  obtain ⟨hlt, -⟩ := List.getElem?_eq_some_iff.1 hfree
  obtain ⟨hnot, hrest⟩ := List.nodup_cons.1 (hfs ▸ hm.nodup)
  refine ⟨fun k => ?_, hrest, by simpa using hm.slots, Memory.wf_setSlot (m := { m with freeStack := rest }) hm.canonical hwf⟩
  have hk := hm.freeIff k
  rw [hfs, List.mem_cons] at hk
  rw [Memory.setSlot_get (m := { m with freeStack := rest }) hlt, Memory.setSlot_freeStack]
  by_cases he : k = h
  · simp [he, hnot]
  · simpa [he] using hk

/-- Appending a live slot below `MaxHandles` keeps the invariant. -/
theorem Memory.StoreInv.append {g : Segment} (hm : m.StoreInv p) (hlen : m.table.length < p.maxHandles)
    (hwf : g.wf = true) : (Memory.mk (m.table ++ [.live g]) m.freeStack).StoreInv p where
  freeIff k := by
    show k ∈ m.freeStack ↔ (m.table ++ [Slot.live g])[k.toNat]? = some .free
    rw [hm.freeIff, List.getElem?_append]
    split_ifs with hk
    · rfl
    · rw [List.getElem?_eq_none (Nat.le_of_not_lt hk)]
      rcases hn : k.toNat - m.table.length with _ | n <;> simp
  nodup := hm.nodup
  slots := by simpa using hlen
  canonical := by simpa [Memory.wf, Slot.wf, hwf] using hm.canonical

theorem Memory.StoreInv.segAlloc (hm : m.StoreInv p) (ha : m.segAlloc p len = .ok (h, m')) : m'.StoreInv p := by
  obtain ⟨rest, hfs, rfl⟩ | ⟨-, hlen, -, rfl⟩ := (Memory.segAlloc_spec ha).2
  · exact hm.reuse hfs (Segment.zeroed_wf len)
  · exact hm.append hlen (Segment.zeroed_wf len)

theorem Memory.StoreInv.segFree (hm : m.StoreInv p) (hf : m.segFree h = .ok m') : m'.StoreInv p := by
  have hwf := Memory.segFree_wf hm.canonical hf
  obtain ⟨-, ⟨g, hg⟩, rfl⟩ := Memory.segFree_spec hf
  refine ⟨fun k => ?_, List.nodup_cons.2 ⟨hm.not_mem_freeStack hg, hm.nodup⟩, by simpa using hm.slots, hwf⟩
  show k ∈ h :: m.freeStack ↔ (m.setSlot h .free).table[k.toNat]? = some .free
  rw [Memory.setSlot_get (Memory.liveSeg_lt hg), List.mem_cons, hm.freeIff]
  by_cases hk : k = h <;> simp [hk]

/-! ## Slot 0 stays live -/

/-- An allocation leaves every live segment as it is: it takes a Free slot or a new one. -/
theorem Memory.liveSeg_segAlloc {k : Word} {g : Segment} (hm : m.StoreInv p) (ha : m.segAlloc p len = .ok (h, m'))
    (hg : m.liveSeg k = some g) : m'.liveSeg k = some g := by
  obtain ⟨rest, hfs, rfl⟩ | ⟨-, -, -, rfl⟩ := (Memory.segAlloc_spec ha).2
  · have hne : k ≠ h := fun he => hm.not_mem_freeStack hg (by simp [hfs, he])
    obtain ⟨hlt, -⟩ := List.getElem?_eq_some_iff.1 ((hm.freeIff h).1 (by simp [hfs]))
    rw [Memory.liveSeg_setLive (m := { m with freeStack := rest }) hlt, if_neg hne]
    exact hg
  · have hlt := Memory.liveSeg_lt hg
    rw [Memory.liveSeg_eq_some] at hg ⊢
    exact (List.getElem?_append_left hlt).trans hg

/-- A free leaves every other segment as it is. -/
theorem Memory.liveSeg_segFree {k : Word} (hf : m.segFree h = .ok m') (hne : k ≠ h) : m'.liveSeg k = m.liveSeg k := by
  obtain ⟨-, ⟨g, hg⟩, rfl⟩ := Memory.segFree_spec hf
  exact (Memory.liveSeg_setFree (Memory.liveSeg_lt hg) k).trans (if_neg hne)

end StoreOperations

/-! ## The store of a Running state -/

/-- What `State.Inv` asks of the store while Running: R45 (a), (b), (d), the canonical form, and (e) in parts. -/
structure Memory.RunningInv (m : Memory) (p : Params) : Prop where
  store : m.StoreInv p
  capacity : m.FitsInParts p
  segmentZero : ∃ g, m.liveSeg 0#32 = some g

section RunningStore

variable {m m' : Memory} {p : Params} {h i v len : Word}

theorem Memory.RunningInv.segWrite (hm : m.RunningInv p) (hw : m.segWrite h i v = .ok m') : m'.RunningInv p := by
  refine ⟨hm.store.segWrite hw, (Memory.segWrite_fitsInParts hm.capacity hw).1, ?_⟩
  obtain ⟨g, g', hg, -, rfl⟩ := Memory.segWrite_spec hw
  rw [Memory.liveSeg_setLive (Memory.liveSeg_lt hg)]
  split_ifs with h0
  · exact ⟨g', rfl⟩
  · exact hm.segmentZero

theorem Memory.RunningInv.segAlloc (hm : m.RunningInv p) (ha : m.segAlloc p len = .ok (h, m')) : m'.RunningInv p := by
  obtain ⟨g, hg⟩ := hm.segmentZero
  exact ⟨hm.store.segAlloc ha, .of_liveWords (Memory.segAlloc_liveWords hm.store ha).2, g,
    Memory.liveSeg_segAlloc hm.store ha hg⟩

theorem Memory.RunningInv.segFree (hm : m.RunningInv p) (hf : m.segFree h = .ok m') : m'.RunningInv p := by
  obtain ⟨h0, -, -⟩ := Memory.segFree_spec hf
  refine ⟨hm.store.segFree hf, (Memory.segFree_fitsInParts hm.capacity hf).1, ?_⟩
  rw [Memory.liveSeg_segFree hf (Ne.symm h0)]
  exact hm.segmentZero

theorem Memory.RunningInv.segInstall (hm : m.RunningInv p) (hi : m.segInstall h = .ok m') : m'.RunningInv p := by
  have hcap := (Memory.segInstall_fitsInParts hm.capacity hi).1
  obtain ⟨g0, hg0⟩ := hm.segmentZero
  obtain ⟨g, hg, rfl⟩ := Memory.segInstall_spec hi
  exact ⟨hm.store.setLive hg0 (Memory.wf_liveSeg hm.store.canonical hg), hcap, g,
    (Memory.liveSeg_setLive (Memory.liveSeg_lt hg0) 0#32).trans (if_pos rfl)⟩

end RunningStore

/-- An instruction after which the machine still runs keeps the store's part of the invariant. -/
theorem exec_keeps_runningInv {i : Instr} {s t : State} (hm : s.mem.RunningInv s.params) (hex : exec i s = .next t)
    (hrun : t.fsm = .running) : t.mem.RunningInv t.params := by
  obtain ⟨hp, hsame | ⟨hterm, -⟩ | ⟨_, _, _, hw⟩ | ⟨_, _, _, -, ha⟩ | ⟨_, hf⟩ | ⟨_, _, -, -, hi⟩⟩ := exec_store_cases hex
  all_goals rw [hp]
  · rwa [hsame]
  · exact absurd hrun hterm
  · exact hm.segWrite hw
  · exact hm.segAlloc ha
  · exact hm.segFree hf
  · exact hm.segInstall hi

/-! ## The invariant of the states -/

theorem State.Inv.runningInv {s : State} (hs : s.Inv) (hrun : s.fsm = .running) : s.mem.RunningInv s.params :=
  ⟨hs.store, hs.capacity, hs.segmentZero hrun⟩

theorem State.Inv.of_running {s : State} (hrun : s.fsm = .running) (hwait : s.inWait = false)
    (hm : s.mem.RunningInv s.params) : s.Inv where
  store := hm.store
  capacity := hm.capacity
  segmentZero _ := hm.segmentZero
  released hterm := absurd hrun hterm
  waiting hw := by simp [hwait] at hw

/-- The end of a run: terminal, not waiting, and the store torn down (R73). -/
theorem State.Inv.of_ended {s : State} (hterm : s.fsm ≠ .running) (hwait : s.inWait = false) (hm : s.mem = Memory.empty) :
    s.Inv where
  store := hm ▸ .empty _
  capacity := hm ▸ s.mem.segReleaseAll_fitsInParts s.params
  segmentZero hrun := absurd hrun hterm
  released _ h := by rw [hm, Memory.liveSeg_empty]
  waiting hw := by simp [hwait] at hw

theorem State.raiseFatal_inv (s : State) (r : FailReason) : (s.raiseFatal r).Inv :=
  .of_ended (by simp) rfl rfl

theorem State.enterHalted_inv (s : State) : s.enterHalted.Inv :=
  .of_ended (by simp) rfl rfl

/-- A hold keeps the invariant: it is taken at an Input without a response, which is what INWAIT means (R40). -/
theorem State.Inv.hold {s : State} (hs : s.Inv) (hrun : s.fsm = .running) (hin : s.AtInput) (hnone : s.receive = none) :
    s.hold.Inv where
  store := hs.store
  capacity := hs.capacity
  segmentZero := hs.segmentZero
  released := hs.released
  waiting _ := by
    obtain ⟨w, c, hfetch, hdec⟩ := hin
    exact ⟨hrun, ⟨w, c, (State.fetch_congr rfl rfl).trans hfetch, hdec⟩,
      State.receive_none.2 (State.receive_none (s := s).1 hnone)⟩

/-- Settles O25: a step that takes effect fails, halts, holds or completes its instruction, and each keeps the invariant. -/
theorem stepKeepsInvariant : Obligations.StepKeepsInvariant := by
  intro s t hs hstep
  obtain ⟨-, rfl⟩ | ⟨hrun, ⟨r, -, rfl⟩ | ⟨_, _, -, -, rfl⟩ | ⟨w, i, hfetch, hdec, hex⟩⟩ := step_cases hstep
  · exact hs
  · exact s.raiseFatal_inv r
  · exact s.raiseFatal_inv .invalidOpcode
  obtain ⟨r, rfl⟩ | ⟨-, rfl⟩ | ⟨c, rfl, hnone, rfl⟩ | hc := exec_cases hex
  · exact s.raiseFatal_inv r
  · exact s.enterHalted_inv
  · exact hs.hold hrun ⟨w, c, hfetch, hdec⟩ hnone
  · obtain ⟨hfsm, hwait⟩ := hc.fsm_inWait
    have hrun' := hfsm.trans hrun
    exact .of_running hrun' hwait (exec_keeps_runningInv (hs.runningInv hrun) hex hrun')

theorem Params.one_le_maxHandles (p : Params) : 1 ≤ p.maxHandles := by
  unfold Params.maxHandles
  split <;> omega

/-- Settles O17: the store of reset is one live segment of no Words. -/
theorem resetMeetsInvariant : Obligations.ResetMeetsInvariant := by
  refine .of_running rfl rfl ⟨.of_no_free (by decide) (Params.one_le_maxHandles _) rfl, .of_liveWords ?_, ⟨0, []⟩, rfl⟩
  exact Nat.zero_le _

/-! ## R45 (e) against the install of R70 -/

/-- An instruction keeps the live Words within the capacity, given that an install does. -/
theorem exec_keeps_fitsCapacity {i : Instr} {s t : State} (hm : s.mem.StoreInv s.params) (hcap : s.FitsCapacity)
    (hinst : ∀ b c, i = .loadProgram b c →
      s.readReg b = 0 ∨ s.mem.wordsAfterInstall (s.readReg b) ≤ s.params.memCapacity)
    (hex : exec i s = .next t) : t.FitsCapacity := by
  have hparts : s.mem.FitsInParts s.params := .of_liveWords hcap
  obtain ⟨hp, hsame | ⟨-, hempty⟩ | ⟨_, _, _, hw⟩ | ⟨_, _, _, -, ha⟩ | ⟨_, hf⟩ | ⟨b, c, hi, hb, hins⟩⟩ := exec_store_cases hex
  all_goals show t.mem.liveWords ≤ t.params.memCapacity; rw [hp]
  · rwa [hsame]
  · rw [hempty]
    exact Nat.zero_le _
  · rw [(Memory.segWrite_fitsInParts hparts hw).2]
    exact hcap
  · exact (Memory.segAlloc_liveWords hm ha).2
  · calc t.mem.liveWords ≤ s.mem.liveWords := by have := (Memory.segFree_fitsInParts hparts hf).2; omega
      _ ≤ _ := hcap
  · rw [(Memory.segInstall_fitsInParts hparts hins).2]
    exact (hinst b c hi).resolve_left hb

/-- A MapSegment ends within the capacity from any state: it checks it, or fails and releases the store. -/
theorem mapSegment_fitsCapacity {b c : RegId} {s t : State} (hm : s.mem.StoreInv s.params)
    (hex : exec (.mapSegment b c) s = .next t) : t.FitsCapacity := by
  obtain ⟨r, rfl⟩ | ⟨hi, -⟩ | ⟨_, hi, -, -⟩ | hc := exec_cases hex
  · exact Nat.zero_le _
  · cases hi
  · cases hi
  · clear hex
    cases hc with
    | mapped b c h m ha => exact (Memory.segAlloc_liveWords hm ha).2

/-- A machine whose MemCapacity is the 3 Words that are live, about to install segment 1 (2 Words) over segment 0 (1 Word). -/
def installingLonger : State :=
  { State.blank ⟨some ⟨1, 3⟩, .fatal⟩ [] false with
    mem := ⟨[.live (Segment.ofWords [encode (.loadProgram 1 2)]), .live (Segment.zeroed 2)], []⟩ }.writeReg 1 1

theorem installingLonger_inv : installingLonger.Inv :=
  .of_running rfl rfl ⟨.of_no_free (by decide) (by decide) (by decide), by decide, _, rfl⟩

/-- The install completes and leaves 4 live Words. -/
theorem installingLonger_step :
    ∃ t, step installingLonger = .next t ∧ t.fsm = .running ∧ ¬t.FitsCapacity :=
  ⟨_, rfl, rfl, by decide⟩

/-- Settles O32: `installingLonger` is the install that exceeds the capacity, and O25 with (e) in parts bounds every excess. -/
theorem capacityKeptExceptByInstall : Obligations.CapacityKeptExceptByInstall := by
  refine ⟨fun i s t hm hcap hinst hex => exec_keeps_fitsCapacity hm hcap hinst hex, ?_, fun s t hs hstep => ?_,
    fun b c s t hm hex => mapSegment_fitsCapacity hm hex⟩
  · obtain ⟨t, hstep, hrun, hover⟩ := installingLonger_step
    exact ⟨installingLonger, t, installingLonger_inv, by decide, rfl, hstep, hrun, hover⟩
  · exact (stepKeepsInvariant s t hs hstep).capacity.liveWords_le

end Sys2Proof.Machine

/-! The segment store (20_memory.md): how the Loader packs a Word, what each store operation answers and which segments it
changes, and what follows for freed handles, installed copies and the lengths of the slots. -/

namespace Sys2Proof.Machine

/-! ## The Loader's packing of four bytes -/

/-- R74's formula: each byte appended multiplies what stands above it by 2^8. -/
theorem packWord_toNat (b0 b1 b2 b3 : Byte) :
    (packWord b0 b1 b2 b3).toNat = b0.toNat * 2 ^ 24 + b1.toNat * 2 ^ 16 + b2.toNat * 2 ^ 8 + b3.toNat := by
  simp only [packWord, BitVec.toNat_append]
  rw [← Nat.shiftLeft_add_eq_or_of_lt b1.isLt, ← Nat.shiftLeft_add_eq_or_of_lt b2.isLt,
    ← Nat.shiftLeft_add_eq_or_of_lt b3.isLt]
  simp only [Nat.shiftLeft_eq]
  omega

/-- Which byte of the image a bit of the Word comes from. -/
theorem getLsbD_packWord (b0 b1 b2 b3 : Byte) (k : Nat) :
    (packWord b0 b1 b2 b3).getLsbD k =
      if k < 8 then b3.getLsbD k else if k < 16 then b2.getLsbD (k - 8)
      else if k < 24 then b1.getLsbD (k - 16) else b0.getLsbD (k - 24) := by
  rw [packWord, BitVec.getLsbD_append, BitVec.getLsbD_append, BitVec.getLsbD_append]
  grind

/-- Bit `k` after an insert: the value's within the field, the container's own elsewhere (R104). -/
theorem getLsbD_insertField (word : Container) {width : Nat} (lsb : Nat) (v : BitVec width) {k : Nat} (hk : k < 64) :
    (insertField word width lsb v).getLsbD k =
      if lsb ≤ k ∧ k < lsb + width then v.getLsbD (k - lsb) else word.getLsbD k := by
  have hmask : ((BitVec.allOnes width).setWidth 64 <<< lsb).getLsbD k = decide (lsb ≤ k ∧ k < lsb + width) := by
    simp only [BitVec.getLsbD_shiftLeft, BitVec.getLsbD_setWidth, BitVec.getLsbD_allOnes]
    grind
  have hvalue : (v.setWidth 64 <<< lsb).getLsbD k = (decide (lsb ≤ k) && v.getLsbD (k - lsb)) := by
    simp only [BitVec.getLsbD_shiftLeft, BitVec.getLsbD_setWidth]
    grind
  rw [insertField, BitVec.getLsbD_or, BitVec.getLsbD_and, BitVec.getLsbD_not, hmask, hvalue]
  split_ifs with hin
  · simp [hin]
  · have hout : (decide (lsb ≤ k) && v.getLsbD (k - lsb)) = false := by
      by_cases hle : lsb ≤ k
      · simp [BitVec.getLsbD_of_ge v (k - lsb) (by omega)]
      · simp [hle]
    simp [hk, hin, hout]

/-- The value of a bit vector of the field's own width is inserted without Overflow (R102, R104). -/
theorem setUnsigned_toNat (word : Container) {width lsb : Nat} (v : BitVec width) (hc : width + lsb ≤ 64) :
    setUnsigned word width lsb v.toNat = .ok (insertField word width lsb v) := by
  have hfits : fitsUnsigned v.toNat width = true := by
    have hlt : (v.toNat : Int) < 2 ^ width := by exact_mod_cast v.isLt
    exact decide_eq_true ⟨Int.natCast_nonneg _, hlt⟩
  have hin : inContainer width lsb = true := decide_eq_true ⟨by omega, hc⟩
  simp [setUnsigned, hin, hfits]

/-- The four inserts of R301, one into the other. -/
theorem loaderWord_eq (b0 b1 b2 b3 : Byte) :
    loaderWord b0 b1 b2 b3 =
      .ok (insertField (insertField (insertField (insertField 0 8 24 b0) 8 16 b1) 8 8 b2) 8 0 b3) := by
  unfold loaderWord
  simp (disch := omega) only [setUnsigned_toNat]

/-- Settles O12: bit by bit, each of the four fields holds its byte and the bits above 31 stay 0. -/
theorem loaderPacksBigEndian : Obligations.LoaderPacksBigEndian := by
  intro b0 b1 b2 b3
  refine ⟨packWord_toNat b0 b1 b2 b3, ?_⟩
  rw [loaderWord_eq]
  congr 1
  refine BitVec.eq_of_getLsbD_eq fun k hk => ?_
  rw [BitVec.getLsbD_setWidth, getLsbD_packWord]
  simp only [getLsbD_insertField _ _ _ hk]
  have habove : 32 ≤ k → b0.getLsbD (k - 24) = false := fun hle => BitVec.getLsbD_of_ge b0 (k - 24) (by omega)
  split_ifs <;> grind

/-! ## What a handle's segment determines -/

section SegmentAccess

variable {m m' : Memory} {p : Params} {h i v len : Word}

theorem Memory.segLen_ok {n : Word} : m.segLen h = .ok n ↔ ∃ g, m.liveSeg h = some g ∧ g.len = n := by
  unfold Memory.segLen
  cases m.liveSeg h <;> simp

theorem Memory.segLen_of_live {g : Segment} (hg : m.liveSeg h = some g) : m.segLen h = .ok g.len := by
  simp [Memory.segLen, hg]

/-- A length depends on the segment its handle names and on nothing else. -/
theorem Memory.segLen_congr {k : Word} (hl : m'.liveSeg k = m.liveSeg h) : m'.segLen k = m.segLen h := by
  simp only [Memory.segLen, hl]

/-- Every operation on a handle that names no live segment is InvalidHandle; a free of 0 has a reason of its own (R68). -/
theorem Memory.invalidHandle_of_not_live (hn : m.liveSeg h = none) (i v : Word) :
    m.segRead h i = .error .invalidHandle ∧ m.segWrite h i v = .error .invalidHandle ∧
      m.segInstall h = .error .invalidHandle ∧ (h ≠ 0#32 → m.segFree h = .error .invalidHandle) := by
  refine ⟨?_, ?_, ?_, fun h0 => ?_⟩
  · simp [Memory.segRead, hn]
  · simp [Memory.segWrite, hn]
  · simp [Memory.segInstall, hn]
  · simp [Memory.segFree, h0, hn]

/-- An access at or beyond the length is OffsetOutOfRange (R67). -/
theorem Memory.offsetOutOfRange_of_le {g : Segment} (hg : m.liveSeg h = some g) (hi : g.len ≤ i) (v : Word) :
    m.segRead h i = .error .offsetOutOfRange ∧ m.segWrite h i v = .error .offsetOutOfRange := by
  have hnot : ¬i < g.len := BitVec.not_lt.2 hi
  simp [Memory.segRead, Memory.segWrite, Segment.read, Segment.write, hg, hnot]

theorem Memory.segRead_of_read {g : Segment} (hg : m.liveSeg h = some g) (hr : g.read i = some v) :
    m.segRead h i = .ok v := by
  simp [Memory.segRead, hg, hr]

/-- A write below the length of a live segment succeeds (R66). -/
theorem Memory.segWrite_of_lt {g : Segment} (hg : m.liveSeg h = some g) (hi : i < g.len) (v : Word) :
    ∃ m', m.segWrite h i v = .ok m' := by
  simp [Memory.segWrite, Segment.write, hg, hi]

theorem Segment.zeroed_read (hi : i < len) : (Segment.zeroed len).read i = some 0 := by
  simp [Segment.read, Segment.zeroed, cellsRead, hi]

/-! ## Which segments each operation changes -/

/-- A write replaces the segment of its own handle, keeping the length, and no other. -/
theorem Memory.liveSeg_segWrite (hw : m.segWrite h i v = .ok m') :
    ∃ g g', m.liveSeg h = some g ∧ g.write i v = some g' ∧ ∀ k, m'.liveSeg k = if k = h then some g' else m.liveSeg k := by
  obtain ⟨g, g', hg, hg', rfl⟩ := Memory.segWrite_spec hw
  exact ⟨g, g', hg, hg', Memory.liveSeg_setLive (Memory.liveSeg_lt hg)⟩

theorem Memory.liveSeg_segWrite_of_ne {k : Word} (hw : m.segWrite h i v = .ok m') (hne : k ≠ h) :
    m'.liveSeg k = m.liveSeg k := by
  obtain ⟨_, _, _, _, hlive⟩ := Memory.liveSeg_segWrite hw
  rw [hlive, if_neg hne]

/-- A write changes no length. -/
theorem Memory.segLen_segWrite (hw : m.segWrite h i v = .ok m') (k : Word) : m'.segLen k = m.segLen k := by
  obtain ⟨g, g', hg, hg', hlive⟩ := Memory.liveSeg_segWrite hw
  by_cases hk : k = h
  · have hnew : m'.liveSeg k = some g' := by rw [hlive, if_pos hk]
    rw [hk, Memory.segLen_of_live hg, ← hk, Memory.segLen_of_live hnew, (Segment.write_spec hg').2.1]
  · exact Memory.segLen_congr (Memory.liveSeg_segWrite_of_ne hw hk)

/-- Read after write: the address written holds the value, and every other address reads as before. -/
theorem Memory.segRead_segWrite (hm : m.wf = true) (hw : m.segWrite h i v = .ok m') (k j : Word) :
    m'.segRead k j = if k = h ∧ j = i then .ok v else m.segRead k j := by
  obtain ⟨g, g', hg, hg', hlive⟩ := Memory.liveSeg_segWrite hw
  by_cases hk : k = h
  · subst hk
    have hnew : m'.liveSeg k = some g' := by rw [hlive, if_pos rfl]
    have hread := ((Segment.write_spec hg').2.2 (Memory.wf_liveSeg hm hg)).2 j
    simp only [Memory.segRead, hg, hnew, hread]
    by_cases hj : j = i <;> simp [hj]
  · rw [if_neg fun hkj => hk hkj.1]
    exact Memory.segRead_congr (Memory.liveSeg_segWrite_of_ne hw hk) j

theorem Params.maxHandles_le (p : Params) : p.maxHandles ≤ 2 ^ 32 := by
  unfold Params.maxHandles
  split <;> exact BitVec.isLt _

/-- The slot appended is the only one that reads differently. -/
theorem Memory.liveSeg_append {g : Segment} (hn : h.toNat = m.table.length) (k : Word) :
    (Memory.mk (m.table ++ [.live g]) m.freeStack).liveSeg k = if k = h then some g else m.liveSeg k := by
  have hslot : (m.table ++ [Slot.live g])[k.toNat]? = if k = h then some (.live g) else m.table[k.toNat]? := by
    split_ifs with hk
    · rw [hk, hn, List.getElem?_concat_length]
    · have hne : k.toNat ≠ m.table.length := fun he => hk (BitVec.eq_of_toNat_eq (he.trans hn.symm))
      rw [List.getElem?_append]
      split_ifs with hlt
      · rfl
      · rw [List.getElem?_eq_none (by simp; omega), List.getElem?_eq_none (by omega)]
  simp only [Memory.liveSeg, hslot]
  by_cases hk : k = h <;> simp [hk]

/-- The number of a new slot, below MaxHandles, is its handle: no slot's number wraps (R44, R64). -/
theorem Memory.toNat_newHandle (hlen : m.table.length < p.maxHandles) :
    (BitVec.ofNat 32 m.table.length).toNat = m.table.length :=
  Nat.mod_eq_of_lt (hlen.trans_le p.maxHandles_le)

/-- An allocation puts a zeroed segment at the handle it returns and changes no other. A handle off the free stack names a
slot by R45 (a). -/
theorem Memory.liveSeg_segAlloc_eq (hlt : h ∈ m.freeStack → h.toNat < m.table.length)
    (ha : m.segAlloc p len = .ok (h, m')) (k : Word) :
    m'.liveSeg k = if k = h then some (Segment.zeroed len) else m.liveSeg k := by
  obtain ⟨rest, hfs, rfl⟩ | ⟨-, hlen, rfl, rfl⟩ := (Memory.segAlloc_spec ha).2
  · exact Memory.liveSeg_setLive (m := { m with freeStack := rest }) (hlt (by simp [hfs])) k
  · exact Memory.liveSeg_append (Memory.toNat_newHandle hlen) k

/-- The handle an allocation returns reads as zeros up to the length asked for (R64). -/
theorem Memory.segAlloc_zero_filled (hlt : h ∈ m.freeStack → h.toNat < m.table.length)
    (ha : m.segAlloc p len = .ok (h, m')) : m'.segLen h = .ok len ∧ ∀ i, i < len → m'.segRead h i = .ok 0 := by
  have hnew : m'.liveSeg h = some (Segment.zeroed len) := by rw [Memory.liveSeg_segAlloc_eq hlt ha, if_pos rfl]
  exact ⟨Memory.segLen_of_live hnew, fun i hi => Memory.segRead_of_read hnew (Segment.zeroed_read hi)⟩

theorem Memory.StoreInv.lt_of_mem_freeStack (hm : m.StoreInv p) (hmem : h ∈ m.freeStack) : h.toNat < m.table.length := by
  obtain ⟨hlt, -⟩ := List.getElem?_eq_some_iff.1 ((hm.freeIff h).1 hmem)
  exact hlt

/-- The handle an allocation returns named no live segment before: it was Free, or the table had no such slot. -/
theorem Memory.not_live_of_segAlloc (hm : m.StoreInv p) (ha : m.segAlloc p len = .ok (h, m')) : m.liveSeg h = none := by
  rw [Memory.liveSeg_eq_none]
  obtain ⟨rest, hfs, -⟩ | ⟨-, hlen, rfl, -⟩ := (Memory.segAlloc_spec ha).2
  · exact .inl ((hm.freeIff h).1 (by simp [hfs]))
  · exact .inr (List.getElem?_eq_none (Memory.toNat_newHandle hlen).ge)

/-- An allocation takes the top of the free stack, or appends a slot where the stack is empty (R64). -/
theorem Memory.segAlloc_handle (ha : m.segAlloc p len = .ok (h, m')) :
    match m.freeStack with
    | top :: rest => h = top ∧ m'.freeStack = rest ∧ m'.table.length = m.table.length
    | [] => h.toNat = m.table.length ∧ m'.freeStack = [] ∧ m'.table.length = m.table.length + 1 := by
  obtain ⟨rest, hfs, rfl⟩ | ⟨hfs, hlen, rfl, rfl⟩ := (Memory.segAlloc_spec ha).2
  · rw [hfs]
    exact ⟨rfl, rfl, Memory.setSlot_length _ _ _⟩
  · rw [hfs]
    exact ⟨Memory.toNat_newHandle hlen, rfl, by simp⟩

/-- Where the capacities of D6 and D7 do not allow it, and only there, an allocation fails. -/
theorem Memory.segAlloc_error_iff (hm : m.StoreInv p) :
    m.segAlloc p len = .error .allocationFailed ↔
      p.memCapacity < m.liveWords + len.toNat ∨ (m.freeStack = [] ∧ m.table.length = p.maxHandles) := by
  constructor
  · intro ha
    exact (Memory.segAlloc_error ha).2.imp_right fun ⟨hfs, hfull⟩ => ⟨hfs, hm.slots.antisymm hfull⟩
  · intro hc
    cases ha : m.segAlloc p len with
    | error r => rw [(Memory.segAlloc_error ha).1]
    | ok x =>
      obtain ⟨hcap, ⟨rest, hfs, -⟩ | ⟨-, hlen, -, -⟩⟩ := Memory.segAlloc_spec ha
      · rcases hc with hc | ⟨hempty, -⟩
        · omega
        · simp [hfs] at hempty
      · omega

/-- The handle freed names no segment any more (R68). -/
theorem Memory.not_live_of_segFree (hf : m.segFree h = .ok m') : m'.liveSeg h = none := by
  obtain ⟨-, ⟨g, hg⟩, rfl⟩ := Memory.segFree_spec hf
  exact (Memory.liveSeg_setFree (Memory.liveSeg_lt hg) h).trans (if_pos rfl)

/-- The next allocation after a free returns the handle freed, which is in range (R64, R68). -/
theorem Memory.segAlloc_after_segFree {k : Word} {m'' : Memory} (hf : m.segFree h = .ok m')
    (ha : m'.segAlloc p len = .ok (k, m'')) : k = h ∧ k.toNat < m'.table.length := by
  obtain ⟨-, ⟨g, hg⟩, rfl⟩ := Memory.segFree_spec hf
  have hlt : h.toNat < (m.setSlot h .free).table.length := by simpa using Memory.liveSeg_lt hg
  obtain ⟨rfl, -, -⟩ := Memory.segAlloc_handle ha
  exact ⟨rfl, hlt⟩

/-- An install puts the segment in slot 0 and changes no other slot (R70). -/
theorem Memory.liveSeg_segInstall (hi : m.segInstall h = .ok m') (k : Word) :
    m'.liveSeg k = if k = 0#32 then m.liveSeg h else m.liveSeg k := by
  obtain ⟨g, hg, rfl⟩ := Memory.segInstall_spec hi
  have h0 : (0#32).toNat < m.table.length := (Nat.zero_le _).trans_lt (Memory.liveSeg_lt hg)
  rw [Memory.liveSeg_setLive h0, hg]

end SegmentAccess

/-! ## Writes, allocations, frees and installs -/

/-- Settles O37: the three clauses are the handle that is not live, the offset beyond the length and the write that succeeds. -/
theorem storeThenLoad : Obligations.StoreThenLoad := by
  intro m h i v hm
  refine ⟨fun hn => ?_, fun n hlen hi => ?_, fun n hlen hi => ?_⟩
  · obtain ⟨hread, hwrite, -, -⟩ := Memory.invalidHandle_of_not_live hn i v
    exact ⟨hwrite, hread⟩
  · obtain ⟨g, hg, rfl⟩ := Memory.segLen_ok.1 hlen
    exact (Memory.offsetOutOfRange_of_le hg hi v).symm
  · obtain ⟨g, hg, rfl⟩ := Memory.segLen_ok.1 hlen
    obtain ⟨m', hw⟩ := Memory.segWrite_of_lt hg hi v
    have hread := Memory.segRead_segWrite hm hw
    refine ⟨m', hw, (hread h i).trans (if_pos ⟨rfl, rfl⟩), fun k j hne => (hread k j).trans (if_neg hne),
      Memory.segLen_segWrite hw, ?_⟩
    obtain ⟨_, g', -, -, rfl⟩ := Memory.segWrite_spec hw
    exact ⟨rfl, Memory.setSlot_length _ _ _⟩

/-- Settles O38: an allocation fails exactly where a capacity does not allow it; one that succeeds changes the slot of the
handle it returns and no other. -/
theorem allocGivesFreshZeroSegment : Obligations.AllocGivesFreshZeroSegment := by
  intro p len m hm
  split_ifs with hfull
  · exact (Memory.segAlloc_error_iff hm).2 hfull
  · cases ha : m.segAlloc p len with
    | error r =>
      obtain ⟨rfl, -⟩ := Memory.segAlloc_error ha
      exact absurd ((Memory.segAlloc_error_iff hm).1 ha) hfull
    | ok x =>
      obtain ⟨h, m'⟩ := x
      obtain ⟨hlen, hzero⟩ := Memory.segAlloc_zero_filled hm.lt_of_mem_freeStack ha
      refine ⟨h, m', rfl, Memory.segAlloc_handle ha, Memory.not_live_of_segAlloc hm ha, hlen, hzero, fun k hne => ?_,
        hm.segAlloc ha⟩
      have hsame : m'.liveSeg k = m.liveSeg k := by rw [Memory.liveSeg_segAlloc_eq hm.lt_of_mem_freeStack ha, if_neg hne]
      exact ⟨Memory.segLen_congr hsame, Memory.segRead_congr hsame⟩

/-- Settles O39: the freed handle names no segment and is the top of the free stack. -/
theorem freedHandleIsInvalidUntilReused : Obligations.FreedHandleIsInvalidUntilReused := by
  intro m m' h hf
  obtain ⟨h0, -, -⟩ := Memory.segFree_spec hf
  have hdead := Memory.invalidHandle_of_not_live (Memory.not_live_of_segFree hf)
  obtain ⟨-, -, hinstall, hfree⟩ := hdead 0 0
  refine ⟨fun i v => ?_, hfree h0, hinstall, fun k hne => ?_, fun p len k m'' ha => ?_⟩
  · obtain ⟨hread, hwrite, -, -⟩ := hdead i v
    exact ⟨hread, hwrite⟩
  · have hsame := Memory.liveSeg_segFree hf hne
    exact ⟨Memory.segLen_congr hsame, Memory.segRead_congr hsame⟩
  · obtain ⟨rfl, hlt⟩ := Memory.segAlloc_after_segFree hf ha
    exact ⟨rfl, Memory.segAlloc_zero_filled (fun _ => hlt) ha⟩

/-- Settles O40: the install makes both slots hold one segment, and a later write or free changes its own slot only. -/
theorem installedCopyIsIndependent : Obligations.InstalledCopyIsIndependent := by
  intro m m' h h0 hi
  have hlive := Memory.liveSeg_segInstall hi
  refine ⟨fun i => ⟨Memory.segRead_congr ((hlive 0).trans (if_pos rfl)) i,
    Memory.segRead_congr ((hlive h).trans (if_neg h0)) i⟩, fun i v m'' hw => ?_, fun i v m'' hw => ?_, fun m'' hf => ?_⟩
  · exact Memory.segRead_congr (Memory.liveSeg_segWrite_of_ne hw h0.symm)
  · exact Memory.segRead_congr (Memory.liveSeg_segWrite_of_ne hw h0)
  · exact Memory.segRead_congr (Memory.liveSeg_segFree hf h0.symm)

/-! ## The lengths of the slots -/

/-- R72's first part. -/
theorem exec_changes_length_only_by_install {i : Instr} {s t : State} {h n n' : Word} (hm : s.mem.StoreInv s.params)
    (hex : exec i s = .next t) (hn : s.mem.segLen h = .ok n) (hn' : t.mem.segLen h = .ok n') (hne : n' ≠ n) :
    h = 0#32 ∧ ∃ b c, i = .loadProgram b c ∧ s.readReg b ≠ 0#32 := by
  have hchanged : t.mem.segLen h ≠ s.mem.segLen h := fun he => hne (Except.ok.inj (hn'.symm.trans (he.trans hn)))
  obtain ⟨g, hg, -⟩ := Memory.segLen_ok.1 hn
  obtain ⟨g', hg', -⟩ := Memory.segLen_ok.1 hn'
  obtain ⟨-, hsame | ⟨-, hempty⟩ | ⟨_, _, _, hw⟩ | ⟨_, _, _, -, ha⟩ | ⟨k, hf⟩ | ⟨b, c, hi, hb, hins⟩⟩ := exec_store_cases hex
  · exact absurd (by rw [hsame]) hchanged
  · simp [hempty] at hg'
  · exact absurd (Memory.segLen_segWrite hw h) hchanged
  · have hlive : t.mem.liveSeg h = s.mem.liveSeg h := (Memory.liveSeg_segAlloc hm ha hg).trans hg.symm
    exact absurd (Memory.segLen_congr hlive) hchanged
  · by_cases hk : h = k
    · rw [hk, Memory.not_live_of_segFree hf] at hg'
      cases hg'
    · exact absurd (Memory.segLen_congr (Memory.liveSeg_segFree hf hk)) hchanged
  · refine ⟨?_, b, c, hi, hb⟩
    by_contra h0
    exact hchanged (Memory.segLen_congr ((Memory.liveSeg_segInstall hins h).trans (if_neg h0)))

/-- R72's second part: no operation takes slot 0 away from a machine that goes on running. -/
theorem exec_keeps_slot_zero_live {i : Instr} {s t : State} {g : Segment} (hm : s.mem.StoreInv s.params)
    (hg : s.mem.liveSeg 0#32 = some g) (hex : exec i s = .next t) (hrun : t.fsm = .running) :
    ∃ g', t.mem.liveSeg 0#32 = some g' := by
  obtain ⟨-, hsame | ⟨hterm, -⟩ | ⟨k, _, _, hw⟩ | ⟨_, _, _, -, ha⟩ | ⟨k, hf⟩ | ⟨b, c, -, -, hins⟩⟩ := exec_store_cases hex
  · exact ⟨g, hsame ▸ hg⟩
  · exact absurd hrun hterm
  · obtain ⟨_, g', -, -, hlive⟩ := Memory.liveSeg_segWrite hw
    rw [hlive]
    split_ifs with hk
    · exact ⟨g', rfl⟩
    · exact ⟨g, hg⟩
  · exact ⟨g, Memory.liveSeg_segAlloc hm ha hg⟩
  · obtain ⟨h0, -, -⟩ := Memory.segFree_spec hf
    exact ⟨g, (Memory.liveSeg_segFree hf (Ne.symm h0)).trans hg⟩
  · obtain ⟨g', hg', -⟩ := Memory.segInstall_spec hins
    exact ⟨g', ((Memory.liveSeg_segInstall hins _).trans (if_pos rfl)).trans hg'⟩

/-- Settles O31: an instruction does one store operation, and of these only the install changes a length. -/
theorem onlyInstallChangesLength : Obligations.OnlyInstallChangesLength := by
  intro i s t hm ⟨n0, hn0⟩ hex
  obtain ⟨g, hg, -⟩ := Memory.segLen_ok.1 hn0
  refine ⟨fun h n n' hn hn' hne => exec_changes_length_only_by_install hm hex hn hn' hne, fun hrun => ?_⟩
  obtain ⟨g', hg'⟩ := exec_keeps_slot_zero_live hm hg hex hrun
  exact ⟨g'.len, Memory.segLen_of_live hg'⟩

end Sys2Proof.Machine

/-! The instruction Word (30_encoding.md): the fields the decoder cuts out of a Word, the canonical words the encoder builds, how
the two undo each other, the assembler's lines, and the codec's calls. -/

namespace Sys2Proof.Machine

/-! ## The fields of a Word as numbers -/

theorem field_toNat (w : Word) (width lsb : Nat) : (field w width lsb).toNat = w.toNat / 2 ^ lsb % 2 ^ width := by
  rw [field, bitField, BitVec.extractLsb'_toNat, Nat.shiftRight_eq_div_pow, BitVec.toNat_setWidth,
    Nat.mod_eq_of_lt (a := w.toNat) (by omega)]

/-- A register field is the slice of 3 bits at its position (R110, R111). -/
theorem regField_eq (w : Word) (lsb : Nat) : regField w lsb = Fin.ofNat 8 (w.toNat / 2 ^ lsb) :=
  Fin.ext (field_toNat w 3 lsb)

theorem regField_eq_iff {w : Word} {lsb : Nat} {r : RegId} : regField w lsb = r ↔ w.toNat / 2 ^ lsb % 8 = r.val := by
  rw [regField_eq, Fin.ext_iff, Fin.val_ofNat]

theorem opcodeField_toNat (w : Word) : (field w 4 28).toNat = w.toNat / 2 ^ 28 := by
  rw [field_toNat]
  omega

theorem opcodeField_eq_iff (w : Word) (op : BitVec 4) : field w 4 28 = op ↔ w.toNat / 2 ^ 28 = op.toNat := by
  rw [← opcodeField_toNat, BitVec.toNat_inj]

/-- The Immediate format, by the opcode as a number (R111, R112). -/
theorem decode_of_opcode_eq {w : Word} (h : w.toNat / 2 ^ 28 = 13) :
    decode w = .instr (.loadImmediate (regField w 25) (field w 25 0)) :=
  if_pos ((opcodeField_eq_iff w 13).2 h)

/-- The Standard format, by the opcode as a number (R110, R112). -/
theorem decode_of_opcode_ne {w : Word} (h : w.toNat / 2 ^ 28 ≠ 13) :
    decode w = standardInstr (field w 4 28) (regField w 6) (regField w 3) (regField w 0) :=
  if_neg fun heq => h ((opcodeField_eq_iff w 13).1 heq)

/-- Settles O4: every field of the decoder as arithmetic on the Word. -/
theorem standardFormatFieldPositions : Obligations.StandardFormatFieldPositions := by
  intro w h
  have hop : field w 4 28 = BitVec.ofNat 4 (w.toNat / 2 ^ 28) := by
    rw [← opcodeField_toNat, BitVec.ofNat_toNat, BitVec.setWidth_eq]
  rw [decode_of_opcode_ne h, hop, regField_eq, regField_eq, regField_eq, Nat.pow_zero, Nat.div_one]

/-! ## The canonical words as numbers -/

theorem append_toNat {m n : Nat} (x : BitVec m) (y : BitVec n) : (x ++ y).toNat = x.toNat * 2 ^ n + y.toNat := by
  rw [BitVec.toNat_append, ← Nat.shiftLeft_add_eq_or_of_lt y.isLt, Nat.shiftLeft_eq]

theorem regBits_toNat (r : RegId) : (regBits r).toNat = r.val := Nat.mod_eq_of_lt r.isLt

/-- A Standard-format word is its fields at their weights (R110). -/
theorem standardWord_toNat (op : BitVec 4) (a b c : RegId) :
    (standardWord op a b c).toNat = op.toNat * 2 ^ 28 + a.val * 64 + b.val * 8 + c.val := by
  simp only [standardWord, append_toNat, regBits_toNat, BitVec.toNat_ofNat]
  omega

/-- An Immediate-format word is its fields at their weights (R111). -/
theorem immediateWord_toNat (a : RegId) (imm : Imm25) :
    (immediateWord a imm).toNat = 0xD0000000 + a.val * 2 ^ 25 + imm.toNat := by
  simp only [immediateWord, append_toNat, regBits_toNat, BitVec.toNat_ofNat]
  omega

/-! ## Decoding undoes encoding -/

theorem decode_standardWord {op : BitVec 4} (hop : op ≠ 13) (a b c : RegId) :
    decode (standardWord op a b c) = standardInstr op a b c := by
  have hw := standardWord_toNat op a b c
  have ha : regField (standardWord op a b c) 6 = a := regField_eq_iff.2 (by omega)
  have hb : regField (standardWord op a b c) 3 = b := regField_eq_iff.2 (by omega)
  have hc : regField (standardWord op a b c) 0 = c := regField_eq_iff.2 (by omega)
  rw [decode, Laws.field_standardWord, if_neg hop, ha, hb, hc]

theorem decode_immediateWord (a : RegId) (imm : Imm25) :
    decode (immediateWord a imm) = .instr (.loadImmediate a imm) := by
  have hw := immediateWord_toNat a imm
  have ha : regField (immediateWord a imm) 25 = a := regField_eq_iff.2 (by omega)
  have himm : field (immediateWord a imm) 25 0 = imm :=
    BitVec.eq_of_toNat_eq (by rw [field_toNat, hw]; omega)
  rw [decode_of_opcode_eq (by omega), ha, himm]

/-- Settles O2, by the format of the instruction: a Standard-format word gives back its opcode and its three registers, of which
the instruction takes those it has. -/
theorem decodeEncodeRoundTrip : Obligations.DecodeEncodeRoundTrip := by
  intro i
  cases i with
  | conditionalMove a b c => exact decode_standardWord (op := 0) (by decide) a b c
  | segLoad a b c => exact decode_standardWord (op := 1) (by decide) a b c
  | segStore a b c => exact decode_standardWord (op := 2) (by decide) a b c
  | add a b c => exact decode_standardWord (op := 3) (by decide) a b c
  | multiply a b c => exact decode_standardWord (op := 4) (by decide) a b c
  | divide a b c => exact decode_standardWord (op := 5) (by decide) a b c
  | nand a b c => exact decode_standardWord (op := 6) (by decide) a b c
  | halt => exact decode_standardWord (op := 7) (by decide) 0 0 0
  | mapSegment b c => exact decode_standardWord (op := 8) (by decide) 0 b c
  | unmapSegment c => exact decode_standardWord (op := 9) (by decide) 0 0 c
  | output c => exact decode_standardWord (op := 10) (by decide) 0 0 c
  | input c => exact decode_standardWord (op := 11) (by decide) 0 0 c
  | loadProgram b c => exact decode_standardWord (op := 12) (by decide) 0 b c
  | loadImmediate a imm => exact decode_immediateWord a imm

/-! ## Encoding a decoded Word clears its ignored bits -/

/-- Two fields that lie side by side are one. -/
theorem field_append_field (w : Word) (m n lsb : Nat) :
    field w m (lsb + n) ++ field w n lsb = field w (m + n) lsb :=
  BitVec.extractLsb'_append_extractLsb'_eq_extractLsb' rfl

theorem field_whole (w : Word) : field w 32 0 = w := by
  rw [field, bitField, BitVec.extractLsb'_setWidth_of_le (by omega), BitVec.extractLsb'_eq_self]

theorem regBits_regField (w : Word) (lsb : Nat) : regBits (regField w lsb) = field w 3 lsb :=
  BitVec.eq_of_toNat_eq (regBits_toNat (regField w lsb))

/-- A Word cut into the fields of the Standard format (R110). -/
theorem standardFields_append (w : Word) :
    field w 4 28 ++ field w 19 9 ++ field w 3 6 ++ field w 3 3 ++ field w 3 0 = w :=
  calc field w 4 28 ++ field w 19 9 ++ field w 3 6 ++ field w 3 3 ++ field w 3 0
    _ = field w 23 9 ++ field w 3 6 ++ field w 3 3 ++ field w 3 0 := by rw [← field_append_field w 4 19 9]
    _ = field w 26 6 ++ field w 3 3 ++ field w 3 0 := by rw [← field_append_field w 23 3 6]
    _ = field w 29 3 ++ field w 3 0 := by rw [← field_append_field w 26 3 3]
    _ = field w 32 0 := field_append_field w 29 3 0
    _ = w := field_whole w

/-- A Word of the Immediate format is what its fields encode to: it has no ignored bits (R111). -/
theorem immediateWord_of_fields {w : Word} (h : w.toNat / 2 ^ 28 = 13) :
    immediateWord (regField w 25) (field w 25 0) = w :=
  calc immediateWord (regField w 25) (field w 25 0)
    _ = field w 4 28 ++ field w 3 25 ++ field w 25 0 := by
      rw [immediateWord, regBits_regField, (opcodeField_eq_iff w 13).2 h]
      rfl
    _ = field w 7 25 ++ field w 25 0 := by rw [← field_append_field w 4 3 25]
    _ = field w 32 0 := field_append_field w 7 25 0
    _ = w := field_whole w

/-- A mask that keeps the opcode, and of each register field the bits of a 3-bit mask: 7 for a field that is used, 0 for an
ignored one (R122). -/
theorem and_standardMask (w : Word) (ma mb mc : RegId) :
    w &&& standardWord 15 ma mb mc =
      field w 4 28 ++ 0#19 ++ (field w 3 6 &&& regBits ma) ++ (field w 3 3 &&& regBits mb) ++
        (field w 3 0 &&& regBits mc) := by
  have hop : field w 4 28 &&& 15#4 = field w 4 28 := BitVec.and_allOnes
  calc w &&& standardWord 15 ma mb mc
    _ = (field w 4 28 ++ field w 19 9 ++ field w 3 6 ++ field w 3 3 ++ field w 3 0) &&&
        (15#4 ++ 0#19 ++ regBits ma ++ regBits mb ++ regBits mc) := by rw [standardFields_append]; rfl
    _ = _ := by simp only [BitVec.and_append, hop, BitVec.and_zero]

/-- The masks of `significantBits`, from three used register fields down to none. -/
theorem and_significantMasks (w : Word) :
    w &&& 0xF00001FF = standardWord (field w 4 28) (regField w 6) (regField w 3) (regField w 0) ∧
      w &&& 0xF000003F = standardWord (field w 4 28) 0 (regField w 3) (regField w 0) ∧
      w &&& 0xF0000007 = standardWord (field w 4 28) 0 0 (regField w 0) ∧
      w &&& 0xF0000000 = standardWord (field w 4 28) 0 0 0 := by
  have hused (lsb : Nat) : field w 3 lsb &&& regBits 7 = field w 3 lsb := BitVec.and_allOnes
  have hignored (lsb : Nat) : field w 3 lsb &&& regBits 0 = regBits 0 := BitVec.and_zero
  have hthree := and_standardMask w 7 7 7
  have htwo := and_standardMask w 0 7 7
  have hone := and_standardMask w 0 0 7
  have hnone := and_standardMask w 0 0 0
  simp only [hused, hignored] at hthree htwo hone hnone
  simp only [standardWord, regBits_regField]
  exact ⟨hthree, htwo, hone, hnone⟩

/-- The Standard format decodes to an instruction of the opcode itself (R120). -/
theorem opcode_of_standardInstr {op : BitVec 4} {a b c : RegId} {i : Instr} (h : standardInstr op a b c = .instr i) :
    opcode i = op := by
  unfold standardInstr at h
  split at h <;> cases h
  all_goals rename_i hop; exact BitVec.eq_of_toNat_eq hop.symm

theorem encode_of_standardInstr {w : Word} {i : Instr}
    (h : standardInstr (field w 4 28) (regField w 6) (regField w 3) (regField w 0) = .instr i) :
    encode i = w &&& significantBits i := by
  obtain ⟨hthree, htwo, hone, hnone⟩ := and_significantMasks w
  have hop := opcode_of_standardInstr h
  rw [← hop] at h hthree htwo hone hnone
  cases i with
  | conditionalMove | segLoad | segStore | add | multiply | divide | nand => cases h; exact hthree.symm
  | mapSegment | loadProgram => cases h; exact htwo.symm
  | unmapSegment | output | input => cases h; exact hone.symm
  | halt => exact hnone.symm
  | loadImmediate => cases h

/-- Settles O3: an Immediate-format word is its own encoding, and in the Standard format each mask keeps the fields that the
instruction has. -/
theorem encodeKeepsSignificantBits : Obligations.EncodeKeepsSignificantBits := by
  intro w i h
  by_cases hop : w.toNat / 2 ^ 28 = 13
  · rw [decode_of_opcode_eq hop] at h
    cases h
    exact (immediateWord_of_fields hop).trans BitVec.and_allOnes.symm
  · exact encode_of_standardInstr ((decode_of_opcode_ne hop).symm.trans h)

/-- Settles O5: an instruction of the Immediate format has one Word, its encoding. -/
theorem immediateFormatEveryBitSignificant : Obligations.ImmediateFormatEveryBitSignificant := by
  intro w hop
  have hdec := decode_of_opcode_eq hop
  refine ⟨?_, fun w' h' => ?_⟩
  · have himm : field w 25 0 = BitVec.ofNat 25 w.toNat :=
      BitVec.eq_of_toNat_eq (by rw [field_toNat, BitVec.toNat_ofNat, Nat.pow_zero, Nat.div_one])
    rw [hdec, regField_eq, himm]
  · have hw' := encodeKeepsSignificantBits w' _ (h'.trans hdec)
    calc w' = w' &&& BitVec.allOnes 32 := BitVec.and_allOnes.symm
      _ = immediateWord (regField w 25) (field w 25 0) := hw'.symm
      _ = w := immediateWord_of_fields hop

/-! ## What follows for the execution of a Word -/

theorem regField_congr {w w' : Word} {lsb : Nat} (hlsb : lsb ≤ 6) (h : w'.toNat % 2 ^ 9 = w.toNat % 2 ^ 9) :
    regField w' lsb = regField w lsb := by
  rw [regField_eq_iff, regField_eq, Fin.val_ofNat]
  interval_cases lsb <;> omega

/-- Settles O6: bits 27:9 lie outside every field of the Standard format, and a Word executes by what it decodes to. -/
theorem ignoredBitsDoNotMatter : Obligations.IgnoredBitsDoNotMatter := by
  intro w w' hop hop' hlow
  have hfield : field w' 4 28 = field w 4 28 := by
    rw [opcodeField_eq_iff, opcodeField_toNat, hop']
  have hdec : decode w' = decode w := by
    rw [decode_of_opcode_ne hop, decode_of_opcode_ne (hop'.trans_ne hop), hfield, regField_congr (by decide) hlow,
      regField_congr (by decide) hlow, regField_congr (by decide) hlow]
  exact ⟨hdec, fun s => by rw [execWord, execWord, hdec]⟩

theorem State.raiseFatal_failsWith (s : State) (r : FailReason) : s.FailsWith r (s.raiseFatal r) :=
  ⟨rfl, rfl, Memory.liveSeg_empty, rfl, fun _ => rfl, ⟨rfl, rfl, rfl⟩, rfl⟩

/-- The opcodes below 13 are those of the Standard format (R113, R120). -/
theorem standardInstr_of_lt {op : BitVec 4} (hop : op.toNat < 13) (a b c : RegId) :
    ∃ i, standardInstr op a b c = .instr i := by
  generalize hn : op.toNat = n at hop
  unfold standardInstr
  rw [hn]
  interval_cases n <;> exact ⟨_, rfl⟩

theorem standardInstr_of_ge {op : BitVec 4} (hop : 13 ≤ op.toNat) (a b c : RegId) :
    standardInstr op a b c = .invalid op := by
  generalize hn : op.toNat = n at hop
  have hlt : op.toNat < 16 := op.isLt
  unfold standardInstr
  rw [hn] at hlt ⊢
  interval_cases n <;> rfl

/-- Settles O7, by the opcode's number: from 14 on the Standard format has no instruction, 13 is the Immediate format, and below
13 the Standard format has one of that opcode. -/
theorem invalidOpcodesFailOthersDecode : Obligations.InvalidOpcodesFailOthersDecode := by
  intro w
  refine ⟨fun hge s => ⟨s.raiseFatal .invalidOpcode, ?_, s.raiseFatal_failsWith .invalidOpcode⟩, fun hlt => ?_⟩
  · have hdec : decode w = .invalid (field w 4 28) := by
      rw [decode_of_opcode_ne (by omega), standardInstr_of_ge (by rw [opcodeField_toNat]; omega)]
    rw [execWord, hdec]
  · by_cases hop : w.toNat / 2 ^ 28 = 13
    · exact ⟨_, decode_of_opcode_eq hop, hop.symm⟩
    · obtain ⟨i, hi⟩ := standardInstr_of_lt (op := field w 4 28) (by rw [opcodeField_toNat]; omega) (regField w 6)
        (regField w 3) (regField w 0)
      refine ⟨i, (decode_of_opcode_ne hop).trans hi, ?_⟩
      rw [opcode_of_standardInstr hi, opcodeField_toNat]

/-! ## The assembler's lines (R124) -/

@[simp] theorem admits_reg (n : Nat) : AsmKind.reg.admits n = true ↔ n < 8 := decide_eq_true_iff

@[simp] theorem admits_imm (n : Nat) : AsmKind.imm.admits n = true ↔ n ≤ 0x01FFFFFF :=
  decide_eq_true_iff.trans Nat.lt_succ_iff

@[simp] theorem admits_word (n : Nat) : AsmKind.word.admits n = true ↔ n < 2 ^ 32 := decide_eq_true_iff

@[simp] theorem admitsAll_nil : admitsAll [] [] = true := rfl

@[simp] theorem admitsAll_cons (k : AsmKind) (ks : List AsmKind) (n : Nat) (ns : List Nat) :
    admitsAll (k :: ks) (n :: ns) = true ↔ k.admits n = true ∧ admitsAll ks ns = true := Bool.and_eq_true_iff

/-- Every line the assembler admits has the number of operands that its head word takes. -/
theorem length_of_admitsAll {ks : List AsmKind} {ns : List Nat} (h : admitsAll ks ns = true) : ns.length = ks.length := by
  induction ks, ns using admitsAll.induct with
  | case1 => rfl
  | case2 k ks n ns ih =>
    obtain ⟨-, hrest⟩ := (admitsAll_cons k ks n ns).1 h
    simp [ih hrest]
  | case3 n ns => simp [admitsAll] at h
  | case4 k ks => simp [admitsAll] at h

/-- The assembler refuses just the lines that are not well-formed: on a well-formed line one of its rows applies. -/
theorem assemble_eq_none_iff (l : AsmLine) : assemble l = none ↔ l.wellFormed = false := by
  obtain ⟨op, args⟩ := l
  cases hwf : AsmLine.wellFormed ⟨op, args⟩ with
  | false => simp [assemble, hwf]
  | true =>
    have hlen : args.length = op.kinds.length := length_of_admitsAll hwf
    simp only [assemble, hwf]
    cases op with
    | cmov | sload | sstore | add | mul | div | nand =>
      obtain ⟨a, b, c, rfl⟩ := List.length_eq_three.1 hlen
      simp
    | map | loadprog | li =>
      obtain ⟨b, c, rfl⟩ := List.length_eq_two.1 hlen
      simp
    | unmap | out | input | word =>
      obtain ⟨c, rfl⟩ := List.length_eq_one_iff.1 hlen
      simp
    | halt =>
      obtain rfl := List.length_eq_zero_iff.1 hlen
      simp

theorem asmReg_val (r : RegId) : asmReg r.val = r := Fin.ofNat_val_eq_self r

theorem wellFormed_toLine (i : Instr) : (toLine i).wellFormed = true := by
  cases i with
  | loadImmediate a imm =>
    have himm : imm.toNat ≤ 0x01FFFFFF := Nat.le_of_lt_succ imm.isLt
    simp [toLine, AsmLine.wellFormed, AsmOp.kinds, himm]
  | _ => simp [toLine, AsmLine.wellFormed, AsmOp.kinds]

theorem assemble_toLine (i : Instr) : assemble (toLine i) = some (encode i) := by
  unfold assemble
  rw [wellFormed_toLine, if_pos rfl]
  cases i <;> simp [toLine, asmReg_val]

/-- Settles O8: the refusals are those of `AsmLine.wellFormed`, whose bounds are read off once the number of operands is right,
and the canonical words are the sums of their fields' weights. -/
theorem assemblerGivesCanonicalWords : Obligations.AssemblerGivesCanonicalWords := by
  refine ⟨?_, assemble_eq_none_iff, assemble_toLine, fun v hv => ?_, fun i => ?_⟩
  · intro l
    obtain ⟨op, args⟩ := l
    rw [ne_eq, assemble_eq_none_iff, Bool.not_eq_false]
    by_cases hlen : args.length = op.kinds.length
    · cases op with
      | cmov | sload | sstore | add | mul | div | nand =>
        obtain ⟨a, b, c, rfl⟩ := List.length_eq_three.1 hlen
        simp [AsmLine.wellFormed, AsmOp.kinds]
      | map | loadprog | li =>
        obtain ⟨b, c, rfl⟩ := List.length_eq_two.1 hlen
        simp [AsmLine.wellFormed, AsmOp.kinds]
      | unmap | out | input | word =>
        obtain ⟨c, rfl⟩ := List.length_eq_one_iff.1 hlen
        simp [AsmLine.wellFormed, AsmOp.kinds]
      | halt =>
        obtain rfl := List.length_eq_zero_iff.1 hlen
        simp [AsmLine.wellFormed, AsmOp.kinds]
    · refine iff_of_false (fun h => hlen (length_of_admitsAll h)) ?_
      split
      case h_16 => exact not_false
      all_goals rename_i hop hargs; cases hop; cases hargs; exact absurd rfl hlen
  · simpa [assemble, AsmLine.wellFormed, AsmOp.kinds] using hv
  · cases i with
    | halt => exact standardWord_toNat 7 0 0 0
    | loadImmediate a imm => exact immediateWord_toNat a imm
    | _ => simp [encode, standardWord_toNat]

/-! ## The codec's calls (R100 to R107) -/

section CodecCalls

variable {width lsb : Nat} (word : Container)

theorem inContainer_of_le (hc : width + lsb ≤ 64) : inContainer width lsb = true :=
  decide_eq_true ⟨by omega, hc⟩

theorem getUnsigned_eq (hc : width + lsb ≤ 64) : getUnsigned word width lsb = .ok (bitField word width lsb).toNat := by
  rw [getUnsigned, inContainer_of_le hc, if_pos rfl]

/-- The sign that R101 tests is the slice's own, and the slice of no bits has none. -/
theorem msb_bitField : (bitField word width lsb).msb = true ↔ 0 < width ∧ word.getLsbD (lsb + width - 1) = true := by
  rw [BitVec.msb_eq_getLsbD_last, bitField, BitVec.getLsbD_extractLsb']
  cases width with
  | zero => simp
  | succ n => simp [Nat.add_sub_assoc]

theorem getSigned_eq (hc : width + lsb ≤ 64) : getSigned word width lsb = .ok (bitField word width lsb).toInt := by
  rw [getSigned, inContainer_of_le hc, if_pos rfl, BitVec.toInt_eq_msb_cond]
  simp only [msb_bitField]
  push_cast
  rfl

/-- Reading a field back after an insert gives what was inserted (R100, R104). -/
theorem bitField_insertField (hc : width + lsb ≤ 64) (v : BitVec width) :
    bitField (insertField word width lsb v) width lsb = v := by
  refine BitVec.eq_of_getLsbD_eq fun k hk => ?_
  rw [bitField, BitVec.getLsbD_extractLsb', getLsbD_insertField _ _ _ (by omega), if_pos (by omega)]
  simp [hk]

/-- An insert changes no bit outside its field (R104, R105). -/
theorem getLsbD_insertField_outside (v : BitVec width) {k : Nat} (hk : k < lsb ∨ lsb + width ≤ k) :
    (insertField word width lsb v).getLsbD k = word.getLsbD k := by
  by_cases h64 : k < 64
  · rw [getLsbD_insertField _ _ _ h64, if_neg (by omega)]
  · rw [BitVec.getLsbD_of_ge _ _ (by omega), BitVec.getLsbD_of_ge _ _ (by omega)]

theorem setUnsigned_eq (hc : width + lsb ≤ 64) (value : Int) : setUnsigned word width lsb value =
    if fitsUnsigned value width then .ok (insertField word width lsb (BitVec.ofInt width value)) else .error .overflow := by
  rw [setUnsigned, inContainer_of_le hc, if_pos rfl]

theorem setSigned_eq (hc : width + lsb ≤ 64) (value : Int) : setSigned word width lsb value =
    if fitsSigned value width then .ok (insertField word width lsb (BitVec.ofInt width value)) else .error .overflow := by
  rw [setSigned, inContainer_of_le hc, if_pos rfl]

end CodecCalls

theorem fitsUnsigned_iff {value : Int} {width : Nat} :
    fitsUnsigned value width = true ↔ 0 ≤ value ∧ value < 2 ^ width := decide_eq_true_iff

/-- R103's range, with the field of no bits apart. -/
theorem fitsSigned_iff {value : Int} {width : Nat} : fitsSigned value width = true ↔
    (width = 0 ∧ value = 0) ∨ (1 ≤ width ∧ -(2 ^ (width - 1)) ≤ value ∧ value < 2 ^ (width - 1)) := by
  cases width with
  | zero => simp [fitsSigned]
  | succ n => simp [fitsSigned]

/-- A value in R103's range is the two's complement of its low bits. -/
theorem toInt_ofInt_of_fitsSigned {value : Int} {width : Nat} (h : fitsSigned value width = true) :
    (BitVec.ofInt width value).toInt = value := by
  obtain ⟨rfl, rfl⟩ | ⟨hw, hlo, hhi⟩ := fitsSigned_iff.1 h
  · rfl
  · exact BitVec.toInt_ofInt_eq_self hw hlo hhi

/-- Settles O11: both calls answer `bitField`, as an unsigned number and as a signed one. -/
theorem getFieldsAreSlices : Obligations.GetFieldsAreSlices := by
  intro word width lsb _ hc
  refine ⟨?_, getSigned_eq word hc⟩
  rw [getUnsigned_eq word hc, bitField, BitVec.extractLsb'_toNat, Nat.shiftRight_eq_div_pow]

/-- Settles O9: in range, the value's low bits are inserted, read back as they are and leave every bit beside them. -/
theorem setUnsignedReplacesFieldOnly : Obligations.SetUnsignedReplacesFieldOnly := by
  intro word width lsb value _ hc
  rw [setUnsigned_eq word hc]
  refine ⟨fun hover => if_neg (mt fitsUnsigned_iff.1 hover), fun hfits => ?_⟩
  refine ⟨_, if_pos (fitsUnsigned_iff.2 hfits), ?_, fun k hk => getLsbD_insertField_outside word _ hk⟩
  rw [getUnsigned_eq _ hc, bitField_insertField word hc, BitVec.toNat_ofInt]
  rw [Int.emod_eq_of_lt hfits.1 (by exact_mod_cast hfits.2)]

/-- Settles O10, as O9; the signed read-back is the value since R103's range is that of two's complement (R101). -/
theorem setSignedReplacesFieldOnly : Obligations.SetSignedReplacesFieldOnly := by
  intro word width lsb value _ hc
  rw [setSigned_eq word hc, ← fitsSigned_iff]
  refine ⟨fun hover => ⟨if_neg hover, Bool.eq_false_of_not_eq_true hover⟩, fun hfits => ⟨hfits, _, if_pos hfits, ?_, ?_,
    fun k hk => getLsbD_insertField_outside word _ hk⟩⟩
  · rw [getUnsigned_eq _ hc, bitField_insertField word hc, BitVec.toNat_ofInt]
    push_cast
    rfl
  · rw [getSigned_eq _ hc, bitField_insertField word hc, toInt_ofInt_of_fitsSigned hfits]

/-! ## Every state steps -/

/-- No instruction is refused and none stops the model: each arm of dispatch ends in a next state (R144, R146). -/
theorem exec_next (i : Instr) (s : State) : ∃ t, exec i s = .next t := by
  cases i with
  | add | multiply | nand | halt | loadImmediate => exact ⟨_, rfl⟩
  | conditionalMove | segLoad | segStore | divide | mapSegment | unmapSegment | output | input =>
    simp only [exec, execConditionalMove, execSegLoad, execSegStore, execDivide, execMapSegment, execUnmapSegment,
      execOutput, execInput]
    split <;> exact ⟨_, rfl⟩
  | loadProgram b c =>
    simp only [exec, execLoadProgram]
    split
    · split <;> exact ⟨_, rfl⟩
    · exact ⟨_, rfl⟩

theorem execWord_next (w : Word) (s : State) : ∃ t, execWord w s = .next t := by
  unfold execWord
  split
  · exact ⟨_, rfl⟩
  · exact exec_next _ s

/-- Settles O24: a terminal state stays, a fetch without a Word fails, and a fetched Word executes. -/
theorem everyStateSteps : Obligations.EveryStateSteps := by
  intro s
  unfold step
  split
  · exact ⟨s, rfl⟩
  · exact ⟨s, rfl⟩
  · split
    · exact ⟨_, rfl⟩
    · exact execWord_next _ s

end Sys2Proof.Machine

/-! The execution cycle (40_execution_cycle.md): what a step of a Running machine does by what it fetches, the PC after it, and
the two runs that go on forever, the hold of an Input and the self-jump. -/

namespace Sys2Proof.Machine

/-! ## The step of a Running machine, by what it fetches -/

section RunningStep

variable {s : State} {w : Word}

theorem step_of_fetch_ok (hrun : s.fsm = .running) (hw : s.mem.segRead 0#32 s.pc = .ok w) : step s = execWord w s := by
  simp only [step, hrun, State.fetch_ok.2 hw]

theorem step_of_fetch_error {r : FailReason} (hrun : s.fsm = .running) (hr : s.fetch = .error r) :
    step s = .next (s.raiseFatal r) := by
  simp only [step, hrun, hr]

theorem execWord_of_instr {i : Instr} (hdec : decode w = .instr i) : execWord w s = exec i s := by
  rw [execWord, hdec]

/-- Fetch reports the range of segment 0 by a reason of its own (R142). -/
theorem State.fetch_beyond {n : Word} (hn : s.mem.segLen 0#32 = .ok n) (hle : n ≤ s.pc) :
    s.fetch = .error .fetchOutOfRange := by
  obtain ⟨g, hg, rfl⟩ := Memory.segLen_ok.1 hn
  rw [State.fetch, (Memory.offsetOutOfRange_of_le hg hle 0#32).1]

end RunningStep

/-- Settles O20: the fetched Word is dispatched by what it decodes to. -/
theorem stepRunsDecodedInstruction : Obligations.StepRunsDecodedInstruction :=
  fun _ _ _ hrun hw hdec => (step_of_fetch_ok hrun hw).trans (execWord_of_instr hdec)

/-- Settles O21: the step is the dispatch of the Word, which O7 says fails. -/
theorem invalidOpcodeStepFails : Obligations.InvalidOpcodeStepFails := by
  intro s w hrun hw hop
  rw [step_of_fetch_ok hrun hw]
  exact (invalidOpcodesFailOthersDecode w).1 hop s

/-- Settles O22: a step whose fetch fails is that fatal error and nothing else. -/
theorem fetchBeyondSegmentZeroFails : Obligations.FetchBeyondSegmentZeroFails :=
  fun s _ hrun hn hle =>
    ⟨_, step_of_fetch_error hrun (State.fetch_beyond hn hle), s.raiseFatal_failsWith .fetchOutOfRange⟩

/-! ## The PC after a step -/

/-- Receiving changes nothing of the machine but the bytes left on IN. -/
theorem State.receive_withInp {s u : State} {x : InResponse} (h : s.receive = some (x, u)) :
    ∃ bs, u = { s with inp := bs } := by
  obtain ⟨b, rest, -, -, rfl⟩ | ⟨-, -, -, rfl⟩ := State.receive_some h
  · exact ⟨rest, rfl⟩
  · exact ⟨u.inp, rfl⟩

/-- LoadProgram sets the PC to its target, whether it installs or only jumps (R150). -/
theorem Completes.pc_loadProgram {s t : State} {b c : RegId} (h : Completes s (.loadProgram b c) t) :
    t.pc = s.readReg c := by
  cases h with
  | installed => rfl
  | jumped => rfl

/-- Every other instruction that completes takes the default increment (R150). -/
theorem Completes.pc_default {s t : State} {i : Instr} (h : Completes s i t) (hi : ∀ b c, i ≠ .loadProgram b c) :
    t.pc = s.pc + 1 := by
  cases h with
  | installed b c => exact absurd rfl (hi b c)
  | jumped b c => exact absurd rfl (hi b c)
  | received c x u hu =>
    obtain ⟨bs, rfl⟩ := State.receive_withInp hu
    rfl
  | _ => rfl

/-- Settles O29: a step that fails or halts leaves the PC, the hold sets INWAIT, and what completes moves the PC by its rule. -/
theorem pcUpdateAfterDispatch : Obligations.PcUpdateAfterDispatch := by
  intro s t w hrun hw hstep hwait
  rw [step_of_fetch_ok hrun hw] at hstep
  cases hdec : decode w with
  | invalid op =>
    rw [execWord, hdec] at hstep
    cases hstep
    rfl
  | instr i =>
    rw [execWord_of_instr hdec] at hstep
    obtain ⟨r, rfl⟩ | ⟨-, rfl⟩ | ⟨c, -, -, rfl⟩ | hc := exec_cases hstep
    · rfl
    · rfl
    · cases hwait
    · rw [if_pos (hc.fsm_inWait.1.trans hrun)]
      split
      case h_1 b c hi =>
        cases hi
        exact hc.pc_loadProgram
      case h_2 hi => exact hc.pc_default fun b c he => hi b c (congrArg Decoded.instr he)

/-! ## Runs that stay where they are -/

/-- A state that steps to itself is never left. -/
theorem State.runsTo_of_fixed {u : State} (hu : step u = .next u) (k : Nat) : u.RunsTo k u := by
  induction k with
  | zero => exact State.runsTo_zero.2 rfl
  | succ k ih => exact (State.runsTo_succ hu).2 ih

/-- Nor is it left once it has been entered. -/
theorem State.runsTo_into_fixed {s u : State} (hs : step s = .next u) (hu : step u = .next u) (k : Nat) :
    s.RunsTo (k + 1) u :=
  (State.runsTo_succ hs).2 (State.runsTo_of_fixed hu k)

theorem step_selfJump {s : State} {w : Word} {b c : RegId} (hrun : s.fsm = .running)
    (hw : s.mem.segRead 0#32 s.pc = .ok w) (hdec : decode w = .instr (.loadProgram b c)) (hb : s.readReg b = 0#32)
    (hc : s.readReg c = s.pc) : step s = .next (s.jumpTo s.pc) := by
  rw [stepRunsDecodedInstruction s w _ hrun hw hdec, exec, execLoadProgram, nonZero_eq_false.2 hb, hc]
  rfl

/-- Settles O36: after one self-jump, which can only clear INWAIT, every further one changes nothing. -/
theorem selfJumpNeverTerminates : Obligations.SelfJumpNeverTerminates := by
  intro s w b c hrun hw hdec hb hc k
  have hs : step s = .next (s.jumpTo s.pc) := step_selfJump hrun hw hdec hb hc
  have hu : step (s.jumpTo s.pc) = .next (s.jumpTo s.pc) := step_selfJump (s := s.jumpTo s.pc) hrun hw hdec hb hc
  cases k with
  | zero => exact ⟨s, State.runsTo_zero.2 rfl, hrun, rfl⟩
  | succ k => exact ⟨_, State.runsTo_into_fixed hs hu k, hrun, rfl⟩

/-! ## The hold of an Input and the host's delivery -/

/-- RUNSTATE of a Running machine shows INWAIT and nothing else (R40). -/
theorem State.runstate_of_running {s : State} (hrun : s.fsm = .running) : s.runstate = if s.inWait then 4 else 0 := by
  simp only [State.runstate, State.inWaitBit, hrun]
  cases s.inWait <;> rfl

@[simp] theorem State.readReg_hostDeliver (s : State) (x : InResponse) (q : RegId) :
    (s.hostDeliver x).readReg q = s.readReg q := by
  rw [State.readReg, State.hostDeliver_regs, ← State.readReg]

/-- What the host delivers to a machine that has no response is what the next receive answers (R147, R257). -/
theorem State.receive_hostDeliver {s : State} (hnone : s.receive = none) (x : InResponse) :
    ∃ bs, (s.hostDeliver x).receive = some (x, { s.hostDeliver x with inp := bs }) := by
  obtain ⟨hinp, heof⟩ := State.receive_none.1 hnone
  cases x with
  | byte b => exact ⟨[], by simp [State.receive, State.hostDeliver, hinp, heof]⟩
  | eof => exact ⟨[], by simp [State.receive, State.hostDeliver, hinp]⟩

section InputStep

variable {s : State} {w : Word} {c : RegId}

theorem step_input_hold (hrun : s.fsm = .running) (hw : s.mem.segRead 0#32 s.pc = .ok w)
    (hdec : decode w = .instr (.input c)) (hnone : s.receive = none) : step s = .next s.hold := by
  rw [stepRunsDecodedInstruction s w _ hrun hw hdec, exec, execInput, hnone]

theorem step_input_receive {u : State} {x : InResponse} (hrun : s.fsm = .running)
    (hw : s.mem.segRead 0#32 s.pc = .ok w) (hdec : decode w = .instr (.input c)) (hx : s.receive = some (x, u)) :
    step s = .next (u.writeReg c x.value).advance := by
  rw [stepRunsDecodedInstruction s w _ hrun hw hdec, exec, execInput, hx]

/-- An Input that holds executes at the step after a delivery (R147, R256). -/
theorem step_input_delivered (hrun : s.fsm = .running) (hw : s.mem.segRead 0#32 s.pc = .ok w)
    (hdec : decode w = .instr (.input c)) (hnone : s.receive = none) (x : InResponse) :
    ∃ bs, step (s.hostDeliver x) =
      .next ({ s.hostDeliver x with inp := bs }.writeReg c x.value).advance := by
  obtain ⟨bs, hbs⟩ := State.receive_hostDeliver hnone x
  exact ⟨bs, step_input_receive (by rwa [State.hostDeliver_fsm]) (by rwa [State.hostDeliver_mem, State.hostDeliver_pc])
    hdec hbs⟩

end InputStep

/-- Settles O35: the hold is a state that steps to itself, and a delivery gives its Input a response. -/
theorem holdLastsUntilDelivery : Obligations.HoldLastsUntilDelivery := by
  intro s w c hrun hw hdec hinp heof
  have hs : step s = .next s.hold := step_input_hold hrun hw hdec (State.receive_none.2 ⟨hinp, heof⟩)
  have hnone : s.hold.receive = none := State.receive_none.2 ⟨hinp, heof⟩
  have hu : step s.hold = .next s.hold := step_input_hold (s := s.hold) hrun hw hdec hnone
  refine ⟨State.runsTo_into_fixed hs hu, State.runstate_of_running (s := s.hold) hrun, fun x => ?_⟩
  obtain ⟨bs, hstep⟩ := step_input_delivered (s := s.hold) hrun hw hdec hnone x
  refine ⟨_, hstep, by simp, fun r hr => ?_, by simp, ?_, ?_⟩
  · calc _ = { s.hold.hostDeliver x with inp := bs }.readReg r := State.readReg_writeReg_other _ hr x.value
      _ = (s.hold.hostDeliver x).readReg r := State.readReg_withInp _ bs r
      _ = s.readReg r := s.hold.readReg_hostDeliver x r
  · rw [State.runstate_of_running (by simpa using hrun)]
    rfl
  · simp [State.SameStore]

/-- Settles O26: a delivery changes IN and clears INWAIT, and the invariant speaks of IN only while INWAIT is set. -/
theorem hostDeliveryKeepsInvariant : Obligations.HostDeliveryKeepsInvariant := by
  intro s x hs
  constructor
  case store => simpa using hs.store
  case capacity => simpa using hs.capacity
  case segmentZero => simpa using hs.segmentZero
  case released => simpa using hs.released
  case waiting => simp

end Sys2Proof.Machine

/-! The register operations (41_register_ops.md): each that completes writes one register and advances, so one frame serves them
all, and the subtraction that nand and add make. -/

namespace Sys2Proof.Machine

/-! ## One register write and the advance -/

/-- Writing a register with the value it has changes nothing. -/
theorem State.writeReg_readReg_self (s : State) (d : RegId) : s.writeReg d (s.readReg d) = s := by
  simp [State.writeReg, State.readReg, Vector.get_eq_getElem]

/-- What a completed register operation leaves: one register may differ, the PC has moved by one, and all else is as before. -/
theorem State.writeReg_advance_frame (s : State) (d : RegId) (v : Word) :
    s.SameRegsBut d (s.writeReg d v).advance ∧ s.SameStore (s.writeReg d v).advance ∧
      s.SameChannels (s.writeReg d v).advance ∧ s.SameControl (s.writeReg d v).advance ∧
      (s.writeReg d v).advance.pc = s.pc + 1 :=
  ⟨fun _ hr => s.readReg_writeReg_other hr v, ⟨rfl, fun _ _ => rfl⟩, ⟨rfl, rfl, rfl⟩, ⟨rfl, rfl, rfl⟩, rfl⟩

theorem State.readReg_writeReg_advance_same (s : State) (d : RegId) (v : Word) :
    (s.writeReg d v).advance.readReg d = v :=
  s.readReg_writeReg_same d v

theorem State.SameRegsBut.trans {s t u : State} {d : RegId} (hst : s.SameRegsBut d t) (htu : t.SameRegsBut d u) :
    s.SameRegsBut d u :=
  fun r hr => (htu r hr).trans (hst r hr)

/-! ## What each register operation executes to -/

section RegisterOps

variable (a b c : RegId) (s : State)

/-- A move that does not take place is one of the destination's own value (R170). -/
theorem exec_conditionalMove : exec (.conditionalMove a b c) s =
    .next (s.writeReg a (if s.readReg c ≠ 0 then s.readReg b else s.readReg a)).advance := by
  by_cases hc : s.readReg c = 0
  · rw [if_neg (not_not.2 hc), s.writeReg_readReg_self a, exec, execConditionalMove, nonZero_eq_false.2 hc]
    rfl
  · rw [if_pos hc, exec, execConditionalMove, if_pos (nonZero_iff.2 hc)]

theorem exec_add : exec (.add a b c) s = .next (s.writeReg a (s.readReg b + s.readReg c)).advance := rfl

theorem exec_multiply : exec (.multiply a b c) s = .next (s.writeReg a (s.readReg b * s.readReg c)).advance := rfl

theorem exec_nand : exec (.nand a b c) s = .next (s.writeReg a (~~~(s.readReg b &&& s.readReg c))).advance := rfl

theorem exec_loadImmediate (imm : Imm25) : exec (.loadImmediate a imm) s = .next (s.writeReg a (immValue imm)).advance :=
  rfl

variable {c s}

theorem exec_divide (hc : s.readReg c ≠ 0) :
    exec (.divide a b c) s = .next (s.writeReg a (s.readReg b / s.readReg c)).advance :=
  if_neg hc

theorem exec_divide_by_zero (hc : s.readReg c = 0) :
    exec (.divide a b c) s = .next (s.raiseFatal .divideByZero) :=
  if_pos hc

end RegisterOps

/-! ## Results and frames -/

/-- Settles O42: moved or not, it is one write of the destination. -/
theorem conditionalMoveResult : Obligations.ConditionalMoveResult := fun a b c s =>
  ⟨_, exec_conditionalMove a b c s, s.readReg_writeReg_advance_same a _, s.writeReg_advance_frame a _⟩

/-- Settles O43: the sum of bit vectors is the sum of their numbers modulo 2^32. -/
theorem addResult : Obligations.AddResult := by
  intro a b c s
  refine ⟨_, exec_add a b c s, ?_, s.writeReg_advance_frame a _⟩
  rw [State.readReg_writeReg_advance_same, BitVec.toNat_add]

/-- Settles O44: the product of bit vectors is the product of their numbers modulo 2^32. -/
theorem multiplyResult : Obligations.MultiplyResult := by
  intro a b c s
  refine ⟨_, exec_multiply a b c s, ?_, s.writeReg_advance_frame a _⟩
  rw [State.readReg_writeReg_advance_same, BitVec.toNat_mul]

/-- Settles O45, a case for each side of the test for a zero divisor. -/
theorem divideResult : Obligations.DivideResult := by
  intro a b c s
  constructor
  · intro hc
    refine ⟨_, exec_divide a b hc, ?_, s.writeReg_advance_frame a _⟩
    rw [State.readReg_writeReg_advance_same, BitVec.toNat_udiv]
  · intro hc
    exact ⟨_, exec_divide_by_zero a b hc, s.raiseFatal_failsWith .divideByZero⟩

/-- Settles O46: below the width, each bit of the complement is the complement of the bit. -/
theorem nandResult : Obligations.NandResult := by
  intro a b c s
  refine ⟨_, exec_nand a b c s, fun k hk => ?_, s.writeReg_advance_frame a _⟩
  rw [State.readReg_writeReg_advance_same, BitVec.getLsbD_not, BitVec.getLsbD_and, decide_eq_true hk, Bool.true_and]

/-- Settles O47: a widened immediate is the same number. -/
theorem loadImmediateResult : Obligations.LoadImmediateResult := by
  intro a imm s
  refine ⟨_, exec_loadImmediate a s imm, ?_, s.writeReg_advance_frame a _⟩
  rw [State.readReg_writeReg_advance_same, immValue, BitVec.toNat_setWidth_of_le (by decide)]

/-! ## Subtraction -/

/-- The nand of a Word with itself is its complement, whose number is `2 ^ 32 - 1` less the Word's. -/
theorem toNat_of_nand_self {x y : Word} (h : ∀ k, k < 32 → y.getLsbD k = !(x.getLsbD k && x.getLsbD k)) :
    y.toNat = 2 ^ 32 - 1 - x.toNat := by
  have hy : y = ~~~x := BitVec.eq_of_getLsbD_eq fun k hk => by
    rw [h k hk, Bool.and_self, BitVec.getLsbD_not, decide_eq_true hk, Bool.true_and]
  rw [hy, BitVec.toNat_not]

/-- Settles O48 from O46 and O43: no write of the sequence reaches `b` or the register holding 1, so `d` ends as
`b + (2 ^ 32 - 1 - c) + 1` modulo 2^32. -/
theorem subtractionSequence : Obligations.SubtractionSequence := by
  intro d b c one s hdb hdone hone
  obtain ⟨t, hnand, hbits, hst, -⟩ := nandResult d c c s
  obtain ⟨u, hadd, hsum, htu, -⟩ := addResult d b d t
  obtain ⟨v, hinc, hres, huv, -⟩ := addResult d d one u
  refine ⟨t, u, v, hnand, hadd, hinc, ?_, (hst.trans htu).trans huv⟩
  have hnot : (t.readReg d).toNat = 2 ^ 32 - 1 - (s.readReg c).toNat := toNat_of_nand_self hbits
  have hb : t.readReg b = s.readReg b := hst b hdb.symm
  have h1 : u.readReg one = 1#32 := (hst.trans htu one hdone.symm).trans hone
  have hc : (s.readReg c).toNat < 2 ^ 32 := (s.readReg c).isLt
  rw [hres, hsum, hb, hnot, h1, BitVec.toNat_one (by decide)]
  omega

end Sys2Proof.Machine

/-! The segment operations (42_segment_ops.md): each is one operation of the store, so its result is that operation's, and what it
does to the rest of the state is one frame. -/

namespace Sys2Proof.Machine

/-! ## A new store and the advance -/

/-- What an operation leaves that replaces the store and writes no register: all else is as before, and the PC has moved by
one. -/
theorem State.withMem_advance_frame (s : State) (m : Memory) :
    s.SameRegs { s with mem := m }.advance ∧ s.SameChannels { s with mem := m }.advance ∧
      s.SameControl { s with mem := m }.advance ∧ { s with mem := m }.advance.pc = s.pc + 1 :=
  ⟨fun _ => rfl, ⟨rfl, rfl, rfl⟩, ⟨rfl, rfl, rfl⟩, rfl⟩

/-- The same where a register is written as well. -/
theorem State.withMem_writeReg_advance_frame (s : State) (m : Memory) (d : RegId) (v : Word) :
    s.SameRegsBut d ({ s with mem := m }.writeReg d v).advance ∧
      s.SameChannels ({ s with mem := m }.writeReg d v).advance ∧
      s.SameControl ({ s with mem := m }.writeReg d v).advance ∧
      ({ s with mem := m }.writeReg d v).advance.pc = s.pc + 1 :=
  ⟨fun _ hr => { s with mem := m }.readReg_writeReg_other hr v, ⟨rfl, rfl, rfl⟩, ⟨rfl, rfl, rfl⟩, rfl⟩

/-! ## What each segment operation executes to, by the answer of the store -/

section SegmentOps

variable {a b c : RegId} {s : State} {m : Memory} {h v : Word} {r : FailReason}

theorem exec_segLoad_ok (hread : s.mem.segRead (s.readReg b) (s.readReg c) = .ok v) :
    exec (.segLoad a b c) s = .next (s.writeReg a v).advance := by
  rw [exec, execSegLoad, hread]

theorem exec_segLoad_error (hread : s.mem.segRead (s.readReg b) (s.readReg c) = .error r) :
    ∃ t, exec (.segLoad a b c) s = .next t ∧ s.FailsWith r t :=
  ⟨_, by rw [exec, execSegLoad, hread], s.raiseFatal_failsWith r⟩

theorem exec_segStore_ok (hwrite : s.mem.segWrite (s.readReg a) (s.readReg b) (s.readReg c) = .ok m) :
    exec (.segStore a b c) s = .next { s with mem := m }.advance := by
  rw [exec, execSegStore, hwrite]

theorem exec_segStore_error (hwrite : s.mem.segWrite (s.readReg a) (s.readReg b) (s.readReg c) = .error r) :
    ∃ t, exec (.segStore a b c) s = .next t ∧ s.FailsWith r t :=
  ⟨_, by rw [exec, execSegStore, hwrite], s.raiseFatal_failsWith r⟩

theorem exec_mapSegment_ok (halloc : s.mem.segAlloc s.params (s.readReg c) = .ok (h, m)) :
    exec (.mapSegment b c) s = .next ({ s with mem := m }.writeReg b h).advance := by
  rw [exec, execMapSegment, halloc]

theorem exec_mapSegment_error (halloc : s.mem.segAlloc s.params (s.readReg c) = .error r) :
    ∃ t, exec (.mapSegment b c) s = .next t ∧ s.FailsWith r t :=
  ⟨_, by rw [exec, execMapSegment, halloc], s.raiseFatal_failsWith r⟩

theorem exec_unmapSegment_ok (hfree : s.mem.segFree (s.readReg c) = .ok m) :
    exec (.unmapSegment c) s = .next { s with mem := m }.advance := by
  rw [exec, execUnmapSegment, hfree]

theorem exec_unmapSegment_error (hfree : s.mem.segFree (s.readReg c) = .error r) :
    ∃ t, exec (.unmapSegment c) s = .next t ∧ s.FailsWith r t :=
  ⟨_, by rw [exec, execUnmapSegment, hfree], s.raiseFatal_failsWith r⟩

end SegmentOps

/-! ## Reads, allocations and frees that succeed or fail -/

section StoreAnswers

variable {m m' : Memory} {h i : Word}

/-- A read below the length of a live segment succeeds (R65). -/
theorem Memory.segRead_of_lt {g : Segment} (hg : m.liveSeg h = some g) (hi : i < g.len) : ∃ v, m.segRead h i = .ok v :=
  ⟨_, Memory.segRead_ok.2 ⟨g, hg, hi, rfl⟩⟩

/-- A free of a live handle other than 0 succeeds (R68). -/
theorem Memory.segFree_of_live {g : Segment} (h0 : h ≠ 0#32) (hg : m.liveSeg h = some g) : ∃ m', m.segFree h = .ok m' := by
  simp [Memory.segFree, h0, hg]

theorem Memory.segFree_zero (m : Memory) : m.segFree 0 = .error .freeSegmentZero := if_pos rfl

/-- A free pushes its handle and keeps the slots that there are (R68). -/
theorem Memory.segFree_freeStack (hf : m.segFree h = .ok m') :
    m'.freeStack = h :: m.freeStack ∧ m'.table.length = m.table.length := by
  obtain ⟨-, -, rfl⟩ := Memory.segFree_spec hf
  exact ⟨rfl, Memory.setSlot_length _ _ _⟩

end StoreAnswers

/-! ## Results, frames and fatal cases -/

/-- Settles O49: the read answers for the three clauses, and one that succeeds is a register write. -/
theorem segLoadResult : Obligations.SegLoadResult := by
  intro a b c s
  refine ⟨fun n hlen hi => ?_, fun n hlen hi => ?_, fun hdead => ?_⟩
  · obtain ⟨g, hg, rfl⟩ := Memory.segLen_ok.1 hlen
    obtain ⟨v, hread⟩ := Memory.segRead_of_lt hg hi
    refine ⟨_, exec_segLoad_ok hread, ?_, s.writeReg_advance_frame a v⟩
    rw [State.readReg_writeReg_advance_same, hread]
  · obtain ⟨g, hg, rfl⟩ := Memory.segLen_ok.1 hlen
    obtain ⟨hread, -⟩ := Memory.offsetOutOfRange_of_le hg hi 0
    exact exec_segLoad_error hread
  · obtain ⟨hread, -⟩ := Memory.invalidHandle_of_not_live hdead (s.readReg c) 0
    exact exec_segLoad_error hread

/-- Settles O50 from O37, which has the same three clauses for the store's write. -/
theorem segStoreResult : Obligations.SegStoreResult := by
  intro a b c s hwf
  obtain ⟨hdead, hbeyond, hbelow⟩ := storeThenLoad s.mem (s.readReg a) (s.readReg b) (s.readReg c) hwf
  refine ⟨fun n hlen hi => ?_, fun n hlen hi => ?_, fun hn => ?_⟩
  · obtain ⟨m, hwrite, hread, hwords, hlens, hstack, hslots⟩ := hbelow n hlen hi
    exact ⟨_, exec_segStore_ok hwrite, hread, hwords, hlens, hstack, hslots, s.withMem_advance_frame m⟩
  · obtain ⟨hwrite, -⟩ := hbeyond n hlen hi
    exact exec_segStore_error hwrite
  · obtain ⟨hwrite, -⟩ := hdead hn
    exact exec_segStore_error hwrite

/-- Settles O51 from O38: the two clauses are the two sides of its test. The new handle named no live segment before, so it is
not 0 where slot 0 is live. -/
theorem mapSegmentResult : Obligations.MapSegmentResult := by
  intro b c s hm
  have halloc := allocGivesFreshZeroSegment s.params (s.readReg c) s.mem hm
  constructor
  · intro hcap hroom
    have hallowed : ¬(s.params.memCapacity < s.mem.liveWords + (s.readReg c).toNat ∨
        (s.mem.freeStack = [] ∧ s.mem.table.length = s.params.maxHandles)) := by
      rintro (hover | ⟨hempty, hfull⟩)
      · omega
      · exact hroom.elim (fun hne => hne hempty) hfull.not_lt
    rw [if_neg hallowed] at halloc
    obtain ⟨h, m, ha, hhandle, hdead, hlen, hzero, hothers, -⟩ := halloc
    refine ⟨_, exec_mapSegment_ok ha, ?_⟩
    rw [State.readReg_writeReg_advance_same]
    refine ⟨?_, fun n hn h0 => ?_, hlen, hzero, hothers, s.withMem_writeReg_advance_frame m b h⟩
    · revert hhandle
      cases s.mem.freeStack with
      | nil => exact fun ⟨hnew, hempty, _⟩ => ⟨hnew, hempty⟩
      | cons top rest => exact fun ⟨htop, hrest, _⟩ => ⟨htop, hrest⟩
    · obtain ⟨g, hg, -⟩ := Memory.segLen_ok.1 hn
      rw [h0, hg] at hdead
      cases hdead
  · intro hfull
    rw [if_pos hfull] at halloc
    exact exec_mapSegment_error halloc

/-- Settles O52: the free succeeds for a live handle other than 0, and the two ways it fails are the other clauses. -/
theorem unmapSegmentResult : Obligations.UnmapSegmentResult := by
  intro c s
  refine ⟨fun n h0 hlen => ?_, fun h0 => ?_, fun h0 hdead => ?_⟩
  · obtain ⟨g, hg, -⟩ := Memory.segLen_ok.1 hlen
    obtain ⟨m, hf⟩ := Memory.segFree_of_live h0 hg
    obtain ⟨hstack, hslots⟩ := Memory.segFree_freeStack hf
    refine ⟨_, exec_unmapSegment_ok hf, Memory.not_live_of_segFree hf, hstack, hslots, fun k hk => ?_,
      s.withMem_advance_frame m⟩
    have hsame : m.liveSeg k = s.mem.liveSeg k := Memory.liveSeg_segFree hf hk
    exact ⟨Memory.segLen_congr hsame, Memory.segRead_congr hsame⟩
  · exact exec_unmapSegment_error (h0 ▸ s.mem.segFree_zero)
  · obtain ⟨-, -, -, hfree⟩ := Memory.invalidHandle_of_not_live hdead 0 0
    exact exec_unmapSegment_error (hfree h0)

end Sys2Proof.Machine

/-! Control transfer (43_control.md): Halt ends the run, and LoadProgram jumps, after installing a segment where `R[B]` is not 0.
The install's effect on the store is that of the store's operation, and the jump leaves all else but the PC. -/

namespace Sys2Proof.Machine

/-! ## A new store and the jump -/

/-- What a jump leaves, with or without a new store: all but the store and the PC is as before. -/
theorem State.withMem_jumpTo_frame (s : State) (m : Memory) (x : Word) :
    s.SameRegs ({ s with mem := m }.jumpTo x) ∧ s.SameChannels ({ s with mem := m }.jumpTo x) ∧
      s.SameControl ({ s with mem := m }.jumpTo x) :=
  ⟨fun _ => rfl, ⟨rfl, rfl, rfl⟩, ⟨rfl, rfl, rfl⟩⟩

/-! ## What Halt and LoadProgram execute to -/

section ControlOps

variable {b c : RegId} {s : State} {m : Memory} {r : FailReason}

theorem exec_halt (s : State) : exec .halt s = .next s.enterHalted := rfl

theorem exec_loadProgram_zero (hb : s.readReg b = 0) : exec (.loadProgram b c) s = .next (s.jumpTo (s.readReg c)) := by
  simp [exec, execLoadProgram, nonZero_eq_false.2 hb]

theorem exec_loadProgram_ok (hb : s.readReg b ≠ 0) (hinstall : s.mem.segInstall (s.readReg b) = .ok m) :
    exec (.loadProgram b c) s = .next ({ s with mem := m }.jumpTo (s.readReg c)) := by
  rw [exec, execLoadProgram, if_pos (nonZero_iff.2 hb), hinstall]

theorem exec_loadProgram_error (hb : s.readReg b ≠ 0) (hinstall : s.mem.segInstall (s.readReg b) = .error r) :
    ∃ t, exec (.loadProgram b c) s = .next t ∧ s.FailsWith r t :=
  ⟨_, by rw [exec, execLoadProgram, if_pos (nonZero_iff.2 hb), hinstall], s.raiseFatal_failsWith r⟩

end ControlOps

/-! ## Installs and the fetch after them -/

section Installs

variable {m m' : Memory} {h n : Word}

/-- An install of a live handle succeeds, whatever the segment's length (R70, R234). -/
theorem Memory.segInstall_of_live {g : Segment} (hg : m.liveSeg h = some g) : ∃ m', m.segInstall h = .ok m' := by
  simp [Memory.segInstall, hg]

/-- An install takes and adds no slot, and leaves as many live Words as R70 says. -/
theorem Memory.segInstall_counts (hi : m.segInstall h = .ok m') :
    m'.freeStack = m.freeStack ∧ m'.table.length = m.table.length ∧ m'.liveWords = m.wordsAfterInstall h := by
  obtain ⟨g, hg, rfl⟩ := Memory.segInstall_spec hi
  exact ⟨rfl, Memory.setSlot_length _ _ _, Memory.liveWords_install hg⟩

/-- After an install segment 0 is a copy of the installed segment (R70). -/
theorem Memory.segInstall_copies (hi : m.segInstall h = .ok m') :
    m'.segLen 0 = m.segLen h ∧ ∀ i, m'.segRead 0 i = m.segRead h i := by
  have hcopy : m'.liveSeg 0 = m.liveSeg h := (Memory.liveSeg_segInstall hi 0).trans (if_pos rfl)
  exact ⟨Memory.segLen_congr hcopy, Memory.segRead_congr hcopy⟩

/-- An install leaves every segment but segment 0 as it was (R70). -/
theorem Memory.segInstall_keeps_others (hi : m.segInstall h = .ok m') {k : Word} (hk : k ≠ 0) :
    m'.segLen k = m.segLen k ∧ ∀ i, m'.segRead k i = m.segRead k i := by
  have hsame : m'.liveSeg k = m.liveSeg k := (Memory.liveSeg_segInstall hi k).trans (if_neg hk)
  exact ⟨Memory.segLen_congr hsame, Memory.segRead_congr hsame⟩

/-- With slot 0 live, fetch is the read at the PC, and a read that fails is FetchOutOfRange (R142). -/
theorem State.fetch_of_segmentZero {s : State} (hlen : s.mem.segLen 0 = .ok n) :
    (∃ w, s.mem.segRead 0 s.pc = .ok w ∧ s.fetch = .ok w) ∨
      (∃ r, s.mem.segRead 0 s.pc = .error r ∧ s.fetch = .error .fetchOutOfRange) := by
  obtain ⟨g, hg, rfl⟩ := Memory.segLen_ok.1 hlen
  by_cases hpc : s.pc < g.len
  · obtain ⟨w, hread⟩ := Memory.segRead_of_lt hg hpc
    exact .inl ⟨w, hread, State.fetch_ok.2 hread⟩
  · have hbeyond : g.len ≤ s.pc := BitVec.not_lt.1 hpc
    obtain ⟨hread, -⟩ := Memory.offsetOutOfRange_of_le hg hbeyond 0
    exact .inr ⟨_, hread, State.fetch_beyond hlen hbeyond⟩

end Installs

/-! ## Halt, the jump and the install -/

/-- RUNSTATE after Halt: `STATE` is Halted, `REASON` and `INWAIT` are 0 (R40). -/
theorem State.runstate_enterHalted (s : State) : s.enterHalted.runstate = 1 := by
  have hwait : s.enterHalted.inWaitBit = 0 := rfl
  rw [State.runstate, hwait, State.enterHalted_fsm]
  rfl

/-- Settles O53: Halt is the transition to Halted, which empties the store. -/
theorem haltResult : Obligations.HaltResult := fun s =>
  ⟨_, exec_halt s, rfl, rfl, s.runstate_enterHalted, Memory.liveSeg_empty, rfl, fun _ => rfl, ⟨rfl, rfl, rfl⟩, rfl, rfl⟩

/-- Settles O54: the frame of a jump whose store is the one before it. -/
theorem loadProgramJumpResult : Obligations.LoadProgramJumpResult := by
  intro b c s hb
  obtain ⟨hregs, hchannels, hcontrol⟩ := s.withMem_jumpTo_frame s.mem (s.readReg c)
  exact ⟨_, exec_loadProgram_zero hb, rfl, hregs, ⟨rfl, fun _ _ => rfl⟩, hchannels, hcontrol⟩

/-- Settles O55: an install succeeds exactly for a live handle. The copy it makes is what the next fetch reads at `R[C]`. -/
theorem loadProgramInstallResult : Obligations.LoadProgramInstallResult := by
  intro b c s hb
  refine ⟨fun n hlen => ?_, fun hdead => ?_⟩
  · obtain ⟨g, hg, -⟩ := Memory.segLen_ok.1 hlen
    obtain ⟨m, hi⟩ := Memory.segInstall_of_live hg
    obtain ⟨hlen0, hread0⟩ := Memory.segInstall_copies hi
    obtain ⟨hstack, hslots, hwords⟩ := Memory.segInstall_counts hi
    have hcopied : m.segLen 0 = .ok n := hlen0.trans hlen
    refine ⟨_, exec_loadProgram_ok hb hi, rfl, hcopied, hread0, fun k hk => Memory.segInstall_keeps_others hi hk, hstack,
      hslots, hwords, ?_, s.withMem_jumpTo_frame m (s.readReg c)⟩
    rw [← hread0]
    obtain ⟨w, hread, hfetch⟩ | ⟨r, hread, hfetch⟩ :=
      State.fetch_of_segmentZero (s := { s with mem := m }.jumpTo (s.readReg c)) hcopied
    all_goals
      rw [State.jumpTo_mem, State.jumpTo_pc] at hread
      rw [hfetch, hread]
  · obtain ⟨-, -, hinstall, -⟩ := Memory.invalidHandle_of_not_live hdead 0 0
    exact exec_loadProgram_error hb hinstall

end Sys2Proof.Machine

/-! Byte I/O (44_io.md): Output appends to OUT the byte its policy allows, Input takes the next response off IN, and no other step
touches a channel. -/

namespace Sys2Proof.Machine

/-! ## The responses on IN -/

/-- IN answers EOF exactly where the input is exhausted and at its end (R257). -/
theorem State.receive_eof_iff {s : State} : s.receive = some (.eof, s) ↔ s.inp = [] ∧ s.eofAtEnd = true := by
  constructor
  · intro h
    obtain ⟨_, _, -, hx, -⟩ | ⟨hinp, heof, -, -⟩ := State.receive_some h
    · cases hx
    · exact ⟨hinp, heof⟩
  · rintro ⟨hinp, heof⟩
    simp [State.receive, hinp, heof]

/-- A byte left on IN, or its end, is a response. -/
theorem State.receive_of_response {s : State} (h : s.inp ≠ [] ∨ s.eofAtEnd = true) : ∃ x u, s.receive = some (x, u) := by
  cases hx : s.receive with
  | none =>
    obtain ⟨hinp, heof⟩ := State.receive_none.1 hx
    simp [hinp, heof] at h
  | some xu => exact ⟨xu.1, xu.2, rfl⟩

theorem InResponse.value_byte_toNat (b : Byte) : (InResponse.byte b).value.toNat = b.toNat :=
  BitVec.toNat_setWidth_of_le (by decide)

/-! ## The byte for OUT -/

/-- Output has no byte to emit exactly for a value above 255 under Fatal (R250, R252). -/
theorem OutputRangePolicy.byteOf_eq_none_iff {p : OutputRangePolicy} {v : Word} :
    p.byteOf v = none ↔ p = .fatal ∧ 255 < v.toNat := by
  constructor
  · exact OutputRangePolicy.byteOf_none
  · rintro ⟨rfl, hv⟩
    exact if_pos hv

/-! ## What Output and Input execute to -/

section ByteIO

variable {s u : State} {c : RegId} {b : Byte} {x : InResponse}

theorem exec_output_emits (hb : s.params.outputRangePolicy.byteOf (s.readReg c) = some b) :
    exec (.output c) s = .next (s.emit b).advance := by
  rw [exec, execOutput, hb]

theorem exec_output_fatal (hb : s.params.outputRangePolicy.byteOf (s.readReg c) = none) :
    exec (.output c) s = .next (s.raiseFatal .outputOutOfRange) := by
  rw [exec, execOutput, hb]

theorem exec_input_receives (hx : s.receive = some (x, u)) :
    exec (.input c) s = .next (u.writeReg c x.value).advance := by
  rw [exec, execInput, hx]

/-- What an Output that emits leaves unchanged. -/
theorem State.emit_advance_frame (s : State) (b : Byte) :
    s.SameRegs (s.emit b).advance ∧ s.SameStore (s.emit b).advance ∧ s.SameControl (s.emit b).advance ∧
      (s.emit b).advance.pc = s.pc + 1 :=
  ⟨fun _ => rfl, ⟨rfl, fun _ _ => rfl⟩, ⟨rfl, rfl, rfl⟩, rfl⟩

/-- What an Input that receives leaves unchanged: all but its register, the PC and the bytes left on IN. -/
theorem State.receive_writeReg_advance_frame (hx : s.receive = some (x, u)) (c : RegId) (v : Word) :
    (u.writeReg c v).advance.eofAtEnd = s.eofAtEnd ∧ (u.writeReg c v).advance.out = s.out ∧
      s.SameRegsBut c (u.writeReg c v).advance ∧ s.SameStore (u.writeReg c v).advance ∧
      s.SameControl (u.writeReg c v).advance ∧ (u.writeReg c v).advance.pc = s.pc + 1 := by
  obtain ⟨bs, rfl⟩ := State.receive_withInp hx
  obtain ⟨hregs, hstore, ⟨-, heof, hout⟩, hcontrol, hpc⟩ := { s with inp := bs }.writeReg_advance_frame c v
  exact ⟨heof, hout, hregs, hstore, hcontrol, hpc⟩

end ByteIO

/-! ## Results and frames -/

/-- Settles O56: whether the policy gives a byte decides between the emission and the fatal error. -/
theorem outputResult : Obligations.OutputResult := by
  intro c s
  refine ⟨fun hok => ?_, fun hbig => ?_⟩
  · cases hb : s.params.outputRangePolicy.byteOf (s.readReg c) with
    | none =>
      obtain ⟨hfatal, hgt⟩ := OutputRangePolicy.byteOf_eq_none_iff.1 hb
      obtain hmask | hle := hok
      · cases hfatal.symm.trans hmask
      · exact absurd hle (Nat.not_le.2 hgt)
    | some b =>
      have hbyte : b.toNat = (s.readReg c).toNat % 256 := by
        rw [(OutputRangePolicy.byteOf_some hb).1]
        exact BitVec.toNat_setWidth 8 _
      exact ⟨_, b, exec_output_emits hb, hbyte, rfl, rfl, rfl, s.emit_advance_frame b⟩
  · have hb := OutputRangePolicy.byteOf_eq_none_iff.2 hbig
    exact ⟨_, exec_output_fatal hb, s.raiseFatal_failsWith .outputOutOfRange⟩

/-- Settles O57: the response is the next byte where there is one, and EOF where the input has ended. -/
theorem inputResult : Obligations.InputResult := by
  intro c s hresponse
  obtain ⟨x, u, hx⟩ := State.receive_of_response hresponse
  have hframe := State.receive_writeReg_advance_frame hx c x.value
  refine ⟨_, exec_input_receives hx, ?_⟩
  rw [State.readReg_writeReg_advance_same]
  obtain ⟨b, rest, hinp, rfl, rfl⟩ | ⟨hinp, -, rfl, rfl⟩ := State.receive_some hx
  · rw [hinp]
    exact ⟨InResponse.value_byte_toNat b, rfl, hframe⟩
  · rw [hinp]
    exact ⟨rfl, hinp, hframe⟩

/-! ## What a step does to the channels -/

/-- All that an instruction can do to the channels: nothing, one emission by an Output, or one receive by an Input. -/
theorem exec_channel_cases {i : Instr} {s t : State} (h : exec i s = .next t) :
    s.SameChannels t ∨ (∃ c b, i = .output c ∧ t = (s.emit b).advance) ∨
      (∃ c x u, i = .input c ∧ s.receive = some (x, u) ∧ t = (u.writeReg c x.value).advance) := by
  obtain ⟨_, rfl⟩ | ⟨-, rfl⟩ | ⟨_, -, -, rfl⟩ | hc := exec_cases h
  · exact .inl ⟨rfl, rfl, rfl⟩
  · exact .inl ⟨rfl, rfl, rfl⟩
  · exact .inl ⟨rfl, rfl, rfl⟩
  clear h
  cases hc with
  | emitted c b => exact .inr (.inl ⟨c, b, rfl, rfl⟩)
  | received c x u hx => exact .inr (.inr ⟨c, x, u, rfl, hx, rfl⟩)
  | _ => exact .inl ⟨rfl, rfl, rfl⟩

/-- The same of a step: one that executes no instruction leaves the channels alone (R38, R142, R145). -/
theorem step_channel_cases {s t : State} (h : step s = .next t) :
    s.SameChannels t ∨ (∃ b, t = (s.emit b).advance) ∨
      (∃ c x u, s.receive = some (x, u) ∧ t = (u.writeReg c x.value).advance) := by
  obtain ⟨-, rfl⟩ | ⟨-, ⟨_, -, rfl⟩ | ⟨_, _, -, -, rfl⟩ | ⟨_, _, -, -, hex⟩⟩ := step_cases h
  · exact .inl ⟨rfl, rfl, rfl⟩
  · exact .inl ⟨rfl, rfl, rfl⟩
  · exact .inl ⟨rfl, rfl, rfl⟩
  · obtain hsame | ⟨_, b, -, rfl⟩ | ⟨c, x, u, -, hx, rfl⟩ := exec_channel_cases hex
    · exact .inl hsame
    · exact .inr (.inl ⟨b, rfl⟩)
    · exact .inr (.inr ⟨c, x, u, hx, rfl⟩)

theorem step_out_prefix {s t : State} (h : step s = .next t) : s.out <+: t.out := by
  obtain ⟨-, -, hout⟩ | ⟨b, rfl⟩ | ⟨c, x, u, hx, rfl⟩ := step_channel_cases h
  · rw [hout]
  · exact List.prefix_append s.out [b]
  · obtain ⟨-, hout, -⟩ := State.receive_writeReg_advance_frame hx c x.value
    rw [hout]

/-- EOF once is EOF after every step: no step puts a byte on IN or withdraws its end (R257). -/
theorem step_keeps_eof {s t : State} (hs : s.receive = some (.eof, s)) (h : step s = .next t) :
    t.receive = some (.eof, t) := by
  rw [State.receive_eof_iff]
  obtain ⟨hinp, heof⟩ := State.receive_eof_iff.1 hs
  obtain ⟨hinp', heof', -⟩ | ⟨_, rfl⟩ | ⟨c, x, u, hx, rfl⟩ := step_channel_cases h
  · exact ⟨hinp'.trans hinp, heof'.trans heof⟩
  · exact ⟨hinp, heof⟩
  · cases hs.symm.trans hx
    exact ⟨hinp, heof⟩

/-! ## Along a run -/

/-- What every step keeps, every run keeps. -/
theorem State.RunsTo.invariant {P : State → Prop} (hstep : ∀ {u v : State}, P u → step u = .next v → P v) {k : Nat}
    {s t : State} (hrun : s.RunsTo k t) (hs : P s) : P t := by
  induction k generalizing s with
  | zero => exact State.runsTo_zero.1 hrun ▸ hs
  | succ k ih =>
    obtain ⟨u, hu⟩ := everyStateSteps s
    exact ih ((State.runsTo_succ hu).1 hrun) (hstep hs hu)

/-- Settles O33: an Output that does not fail emits one byte, no other instruction appends to OUT, and every step only
extends what has been emitted. -/
theorem outputHistoryOnlyGrows : Obligations.OutputHistoryOnlyGrows := by
  refine ⟨fun i s t hrun hex => ⟨?_, fun hother => ?_⟩, fun k s t hruns => ?_⟩
  · rintro c rfl hrunning
    cases hb : s.params.outputRangePolicy.byteOf (s.readReg c) with
    | none =>
      cases (exec_output_fatal hb).symm.trans hex
      cases hrunning
    | some b =>
      cases (exec_output_emits hb).symm.trans hex
      exact ⟨b, rfl⟩
  · obtain ⟨-, -, hout⟩ | ⟨c, _, rfl, rfl⟩ | ⟨c, x, u, rfl, hx, rfl⟩ := exec_channel_cases hex
    · exact hout
    · obtain hi | hended := hother
      · exact absurd rfl (hi c)
      · exact absurd hrun hended
    · obtain ⟨-, hout, -⟩ := State.receive_writeReg_advance_frame hx c x.value
      exact hout
  · exact hruns.invariant (P := fun u => s.out <+: u.out) (fun hu hstep => hu.trans (step_out_prefix hstep))
      (List.prefix_refl s.out)

/-- Settles O34: receiving EOF is an invariant of the run. -/
theorem eofRepeatsForever : Obligations.EofRepeatsForever := fun _ _ _ hinp heof hrun =>
  hrun.invariant (P := fun u => u.receive = some (.eof, u)) step_keeps_eof (State.receive_eof_iff.2 ⟨hinp, heof⟩)

end Sys2Proof.Machine

/-! Fatal errors (60_exceptions.md): a step that ends in Failed is `State.raiseFatal` and nothing else, and its reason is the
first check that fails. -/

namespace Sys2Proof.Machine

/-! ## A failing step is `State.raiseFatal` -/

/-- Only a fatal error moves an instruction of a Running machine to Failed: halting, holding and completing do not. -/
theorem exec_eq_raiseFatal_of_failed {i : Instr} {s t : State} {r : FailReason} (hrun : s.fsm = .running)
    (hex : exec i s = .next t) (hfail : t.fsm = .failed r) : t = s.raiseFatal r := by
  obtain ⟨q, rfl⟩ | ⟨-, rfl⟩ | ⟨_, -, -, rfl⟩ | hc := exec_cases hex
  · cases hfail
    rfl
  · cases hfail
  · cases hrun.symm.trans hfail
  · cases hrun.symm.trans (hc.fsm_inWait.1.symm.trans hfail)

/-- The same of a step, whose fetch and decode fail in no other way either (R142, R145). -/
theorem step_eq_raiseFatal_of_failed {s t : State} {r : FailReason} (hrun : s.fsm = .running) (hstep : step s = .next t)
    (hfail : t.fsm = .failed r) : t = s.raiseFatal r := by
  obtain ⟨hterm, -⟩ | ⟨-, ⟨q, -, rfl⟩ | ⟨_, _, -, -, rfl⟩ | ⟨_, _, -, -, hex⟩⟩ := step_cases hstep
  · exact absurd hrun hterm
  · cases hfail
    rfl
  · cases hfail
    rfl
  · exact exec_eq_raiseFatal_of_failed hrun hex hfail

/-- RUNSTATE after a fatal error: `STATE` is Failed, `INWAIT` is 0 and `REASON` is the reason's code (R40, R271). -/
theorem State.runstate_raiseFatal (s : State) (r : FailReason) :
    (s.raiseFatal r).runstate.toNat = 2 + 256 * r.code.toNat := by
  have hwait : (s.raiseFatal r).inWaitBit.toNat = 0 := rfl
  have hstate : (s.raiseFatal r).fsm.stateBits.toNat = 2 := rfl
  have hreason : (s.raiseFatal r).fsm.reasonBits = r.code := rfl
  rw [State.runstate_toNat, hwait, hstate, hreason]
  omega

/-- Settles O27: the step is `raiseFatal`, whose frame, RUNSTATE and exit status are known; the codes are R271's. -/
theorem failingStepIsPrecise : Obligations.FailingStepIsPrecise := by
  intro s t r hrun hstep hfail
  obtain rfl := step_eq_raiseFatal_of_failed hrun hstep hfail
  refine ⟨s.raiseFatal_failsWith r, ?_, rfl, failExitStatus_ne_zero r.code⟩
  rw [State.runstate_raiseFatal]
  cases r <;> rfl

/-! ## The checks of the store's operations -/

section StoreChecks

variable {m : Memory} {h i v : Word} {r : FailReason}

/-- A read and a write fail by the same two checks, liveness before the offset's range (R65, R66, R275). -/
theorem Memory.access_error_iff : (m.segRead h i = .error r ↔ m.accessFatal h i = some r) ∧
    (m.segWrite h i v = .error r ↔ m.accessFatal h i = some r) := by
  unfold Memory.accessFatal
  cases hg : m.liveSeg h with
  | none =>
    obtain ⟨hread, hwrite, -⟩ := Memory.invalidHandle_of_not_live hg i v
    simp [hread, hwrite]
  | some g =>
    by_cases hi : g.len ≤ i
    · obtain ⟨hread, hwrite⟩ := Memory.offsetOutOfRange_of_le hg hi v
      simp [hread, hwrite, hi]
    · obtain ⟨u, hread⟩ := Memory.segRead_of_lt hg (BitVec.not_le.1 hi)
      obtain ⟨m', hwrite⟩ := Memory.segWrite_of_lt hg (BitVec.not_le.1 hi) v
      simp [hread, hwrite, hi]

/-- A free fails for handle 0, and for another handle that is not live (R68, R275). -/
theorem Memory.segFree_error_iff : m.segFree h = .error r ↔
    (h = 0#32 ∧ r = .freeSegmentZero) ∨ (h ≠ 0#32 ∧ m.liveSeg h = none ∧ r = .invalidHandle) := by
  by_cases h0 : h = 0#32
  · simp [Memory.segFree, h0, eq_comm (a := r)]
  · cases hg : m.liveSeg h with
    | none =>
      obtain ⟨-, -, -, hfree⟩ := Memory.invalidHandle_of_not_live hg 0 0
      simp [hfree h0, h0, eq_comm (a := r)]
    | some g =>
      obtain ⟨m', hfree⟩ := Memory.segFree_of_live h0 hg
      simp [hfree, h0]

theorem Memory.segInstall_error_iff : m.segInstall h = .error r ↔ m.liveSeg h = none ∧ r = .invalidHandle := by
  constructor
  · intro hi
    exact (Memory.segInstall_error hi).symm
  · rintro ⟨hn, rfl⟩
    obtain ⟨-, -, hinstall, -⟩ := Memory.invalidHandle_of_not_live hn 0 0
    exact hinstall

/-- An allocation has one reason to fail. -/
theorem Memory.StoreInv.segAlloc_error_iff {p : Params} {len : Word} (hm : m.StoreInv p) : m.segAlloc p len = .error r ↔
    (p.memCapacity < m.liveWords + len.toNat ∨ (m.freeStack = [] ∧ m.table.length = p.maxHandles)) ∧
      r = .allocationFailed := by
  rw [← Memory.segAlloc_error_iff hm]
  constructor
  · intro ha
    obtain ⟨rfl, -⟩ := Memory.segAlloc_error ha
    exact ⟨ha, rfl⟩
  · rintro ⟨ha, rfl⟩
    exact ha

end StoreChecks

/-! ## The reason an instruction fails with -/

theorem exec_input_holds {c : RegId} {s : State} (hnone : s.receive = none) : exec (.input c) s = .next s.hold := by
  rw [exec, execInput, hnone]

/-- An instruction that turns the answer of one operation into its outcome ends in Failed exactly where that answer is an
error, with the reason the operation gives. -/
theorem failed_iff_error {α : Type} {x : Except FailReason α} {i : Instr} {s t : State} {r : FailReason}
    (hrun : s.fsm = .running) (hex : exec i s = .next t)
    (herror : ∀ {q}, x = .error q → ∃ u, exec i s = .next u ∧ s.FailsWith q u)
    (hok : ∀ {a}, x = .ok a → ∃ u, exec i s = .next u ∧ u.fsm = s.fsm) :
    t.fsm = .failed r ↔ x = .error r := by
  cases hx : x with
  | error q =>
    obtain ⟨u, hu, hfsm, -⟩ := herror hx
    cases hex.symm.trans hu
    simp [hfsm]
  | ok a =>
    obtain ⟨u, hu, hfsm⟩ := hok hx
    cases hex.symm.trans hu
    simp [hfsm, hrun]

/-- An instruction ends in Failed with the reason of the first of its checks that fails, and only then (R275). -/
theorem exec_failed_iff {i : Instr} {s t : State} {r : FailReason} (hrun : s.fsm = .running)
    (hm : s.mem.StoreInv s.params) (hex : exec i s = .next t) : t.fsm = .failed r ↔ firstFatal i s = some r := by
  cases i with
  | segLoad a b c =>
    rw [failed_iff_error hrun hex exec_segLoad_error fun hv => ⟨_, exec_segLoad_ok hv, rfl⟩]
    exact (Memory.access_error_iff (v := 0)).1
  | segStore a b c =>
    rw [failed_iff_error hrun hex exec_segStore_error fun hv => ⟨_, exec_segStore_ok hv, rfl⟩]
    exact Memory.access_error_iff.2
  | mapSegment b c =>
    rw [failed_iff_error hrun hex exec_mapSegment_error fun hv => ⟨_, exec_mapSegment_ok hv, rfl⟩,
      hm.segAlloc_error_iff]
    by_cases hcap : s.params.memCapacity < s.mem.liveWords + (s.readReg c).toNat
    · simp [firstFatal, hcap, eq_comm (a := r)]
    · simp [firstFatal, hcap, eq_comm (a := r)]
  | unmapSegment c =>
    rw [failed_iff_error hrun hex exec_unmapSegment_error fun hv => ⟨_, exec_unmapSegment_ok hv, rfl⟩,
      Memory.segFree_error_iff]
    by_cases hc : s.readReg c = 0#32
    · simp [firstFatal, hc, eq_comm (a := r)]
    · simp [firstFatal, hc, eq_comm (a := r)]
  | loadProgram b c =>
    by_cases hb : s.readReg b = 0#32
    · cases hex.symm.trans (exec_loadProgram_zero hb)
      simp [firstFatal, hb, hrun]
    · rw [failed_iff_error hrun hex (exec_loadProgram_error hb) fun hv => ⟨_, exec_loadProgram_ok hb hv, rfl⟩,
        Memory.segInstall_error_iff]
      simp [firstFatal, hb, eq_comm (a := r)]
  | divide a b c =>
    by_cases hc : s.readReg c = 0#32
    · cases hex.symm.trans (exec_divide_by_zero a b hc)
      simp [firstFatal, hc]
    · cases hex.symm.trans (exec_divide a b hc)
      simp [firstFatal, hc, hrun]
  | output c =>
    cases hb : s.params.outputRangePolicy.byteOf (s.readReg c) with
    | none =>
      cases hex.symm.trans (exec_output_fatal hb)
      rw [firstFatal, if_pos (OutputRangePolicy.byteOf_none hb)]
      simp
    | some b =>
      cases hex.symm.trans (exec_output_emits hb)
      have hpass : ¬(s.params.outputRangePolicy = .fatal ∧ 255 < s.readReg c) := fun hfatal =>
        Option.some_ne_none b (hb.symm.trans (OutputRangePolicy.byteOf_eq_none_iff.2 hfatal))
      rw [firstFatal, if_neg hpass]
      simp [hrun]
  | input c =>
    cases hx : s.receive with
    | none =>
      cases hex.symm.trans (exec_input_holds hx)
      simp [firstFatal, hrun]
    | some xu =>
      cases hex.symm.trans (exec_input_receives (x := xu.1) (u := xu.2) hx)
      simp [firstFatal, (State.receive_frame hx).1, hrun]
  | conditionalMove a b c =>
    cases hex.symm.trans (exec_conditionalMove a b c s)
    simp [firstFatal, hrun]
  | add | multiply | nand | halt | loadImmediate =>
    cases hex
    simp [firstFatal, hrun]

/-! ## The reason a step fails with -/

/-- A fetch that fails is the step's first check: FetchOutOfRange, or InvalidHandle where there is no segment 0. -/
theorem State.stepFatal_of_fetch_error {s : State} {r : FailReason} (hr : s.fetch = .error r) : s.stepFatal = some r := by
  obtain ⟨rfl, g, hg, hpc⟩ | ⟨rfl, hdead⟩ := State.fetch_error hr
  · obtain ⟨hread, -⟩ := Memory.offsetOutOfRange_of_le hg hpc 0
    simp [State.stepFatal, hread]
  · obtain ⟨hread, -⟩ := Memory.invalidHandle_of_not_live hdead s.pc 0
    simp [State.stepFatal, hread]

/-- After a fetch the opcode is the next check, and the instruction's own come last (R275). -/
theorem State.stepFatal_of_fetch_ok {s : State} {w : Word} (hw : s.fetch = .ok w) :
    (∀ op, decode w = .invalid op → s.stepFatal = some .invalidOpcode) ∧
      ∀ i, decode w = .instr i → s.stepFatal = firstFatal i s := by
  have hread : s.mem.segRead 0 s.pc = .ok w := State.fetch_ok.1 hw
  exact ⟨fun op hdec => by simp only [State.stepFatal, hread, hdec],
    fun i hdec => by simp only [State.stepFatal, hread, hdec]⟩

/-- A step of a Running machine ends in Failed with the reason of the first check that fails, and only then (R275). -/
theorem step_failed_iff {s t : State} {r : FailReason} (hrun : s.fsm = .running) (hm : s.mem.StoreInv s.params)
    (hstep : step s = .next t) : t.fsm = .failed r ↔ s.stepFatal = some r := by
  obtain ⟨hterm, -⟩ | ⟨-, ⟨q, hq, rfl⟩ | ⟨w, op, hw, hdec, rfl⟩ | ⟨w, i, hw, hdec, hex⟩⟩ := step_cases hstep
  · exact absurd hrun hterm
  · simp [State.stepFatal_of_fetch_error hq]
  · simp [(State.stepFatal_of_fetch_ok hw).1 op hdec]
  · rw [(State.stepFatal_of_fetch_ok hw).2 i hdec]
    exact exec_failed_iff hrun hm hex

/-- Settles O28: the step fails with the first failing check's reason and only then, and failing is `raiseFatal`. -/
theorem firstFatalCheckIsReported : Obligations.FirstFatalCheckIsReported := by
  intro s hrun hm
  obtain ⟨t, hstep⟩ := everyStateSteps s
  refine ⟨t, hstep, fun r hr => ?_, fun hnone r hfail => ?_⟩
  · obtain rfl := step_eq_raiseFatal_of_failed hrun hstep ((step_failed_iff hrun hm hstep).2 hr)
    exact s.raiseFatal_failsWith r
  · cases hnone.symm.trans ((step_failed_iff hrun hm hstep).1 hfail)

end Sys2Proof.Machine

/-! Reset and hazards (70_reset_and_hazards.md): the Words the Loader frames, the two ways the reset sequence ends, and the
fetch that reads code just stored or installed. -/

namespace Sys2Proof.Machine

/-! ## Image framing -/

/-- One Word per whole group of four bytes; one to three trailing bytes make none (R301, R302). -/
theorem length_frameImage : ∀ image : List Byte, (frameImage image).length = image.length / 4
  | _ :: _ :: _ :: _ :: rest => by
    simp only [frameImage, List.length_cons, length_frameImage rest]
    omega
  | [] | [_] | [_, _] | [_, _, _] => by simp [frameImage]

/-- Word `k` is packed from the four bytes at `4k`: each earlier group shifts the Words by one and the bytes by four. -/
theorem getElem?_frameImage : ∀ (image : List Byte) (k : Nat), k < image.length / 4 →
    (frameImage image)[k]? = some (packWord (image.getD (4 * k) 0) (image.getD (4 * k + 1) 0)
      (image.getD (4 * k + 2) 0) (image.getD (4 * k + 3) 0))
  | _ :: _ :: _ :: _ :: _, 0, _ => rfl
  | _ :: _ :: _ :: _ :: rest, k + 1, hk => by
    have hrest : k < rest.length / 4 := by
      simp only [List.length_cons] at hk
      omega
    exact getElem?_frameImage rest k hrest
  | [], _, hk | [_], _, hk | [_, _], _, hk | [_, _, _], _, hk => by simp at hk

/-- Settles O13: the number of Words and each Word, both by recursion on the groups of four bytes. -/
theorem imageFramingByFours : Obligations.ImageFramingByFours :=
  fun image => ⟨length_frameImage image, getElem?_frameImage image⟩

/-! ## The segment that holds the image -/

/-- Each Word of a list no longer than a segment can be is read back at its index (R301). -/
theorem Segment.read_ofWords {ws : List Word} {k : Nat} (hws : ws.length < 2 ^ 32) (hk : k < ws.length) :
    (Segment.ofWords ws).read (BitVec.ofNat 32 k) = some (ws.getD k 0) := by
  have hindex : (BitVec.ofNat 32 k).toNat = k := Nat.mod_eq_of_lt (hk.trans hws)
  have hlt : BitVec.ofNat 32 k < (Segment.ofWords ws).len := by
    have hlen : (Segment.ofWords ws).len.toNat = ws.length := Nat.mod_eq_of_lt hws
    rw [BitVec.lt_def, hindex, hlen]
    exact hk
  have hcell : cellsRead k (Segment.ofWords ws).cells = ws.getD k 0 := by
    simpa [Segment.ofWords] using cellsRead_cellsOf 0 k ws
  rw [Segment.read, if_pos hlt, hindex, hcell]

/-! ## The reset sequence -/

/-- The first allocation is handle 0, and only the capacity can refuse it: `MaxHandles` is at least 1 (R14, R64). -/
theorem Memory.segAlloc_empty (p : Params) (len : Word) :
    Memory.empty.segAlloc p len =
      if p.memCapacity < len.toNat then .error .allocationFailed
      else .ok (0, ⟨[.live (Segment.zeroed len)], []⟩) := by
  have hslots : ¬p.maxHandles ≤ 0 := Nat.not_le.2 p.one_le_maxHandles
  have hwords : Memory.empty.liveWords + len.toNat = len.toNat := Nat.zero_add _
  rw [Memory.segAlloc, hwords]
  simp [Memory.empty, hslots]

/-- The state a reset that finds room ends in: the reset values, and the image's Words as segment 0 (R303). -/
def State.loaded (p : Params) (image inp : List Byte) (eofAtEnd : Bool) : State :=
  { State.blank p inp eofAtEnd with mem := ⟨[.live (Segment.ofWords (frameImage image))], []⟩ }

section Boot

variable {p : Params} {image inp : List Byte} {eofAtEnd : Bool}

/-- The two ways a reset ends: an image of too many Words, or of more than the capacity, is AllocationFailed (R304, D7, D8),
and any other is loaded (R303). -/
theorem State.boot_eq : State.boot p image inp eofAtEnd =
    if 2 ^ 32 - 1 < image.length / 4 ∨ p.memCapacity < image.length / 4 then
      (State.blank p inp eofAtEnd).raiseFatal .allocationFailed
    else State.loaded p image inp eofAtEnd := by
  by_cases hlong : 2 ^ 32 - 1 < image.length / 4
  · simp only [State.boot, length_frameImage, hlong, true_or, if_true]
  · have hword : (BitVec.ofNat 32 (image.length / 4)).toNat = image.length / 4 := Nat.mod_eq_of_lt (by omega)
    simp only [State.boot, length_frameImage, State.blank, Memory.segAlloc_empty, hword, hlong, if_false, false_or]
    split_ifs <;> rfl

/-- With room for the image, reset ends in the loaded state (R303). -/
theorem State.boot_of_room (hlen : image.length / 4 ≤ 2 ^ 32 - 1) (hcap : image.length / 4 ≤ p.memCapacity) :
    State.boot p image inp eofAtEnd = State.loaded p image inp eofAtEnd := by
  rw [State.boot_eq, if_neg (by omega)]

theorem State.readReg_loaded (r : RegId) : (State.loaded p image inp eofAtEnd).readReg r = 0 := by
  simp [State.loaded, State.blank, Vector.get_eq_getElem]

/-- Segment 0 of the loaded state is as long as the image has Words (R302, R303). -/
theorem State.segLen_loaded :
    (State.loaded p image inp eofAtEnd).mem.segLen 0 = .ok (BitVec.ofNat 32 (image.length / 4)) := by
  rw [← length_frameImage]
  rfl

/-- Segment 0 of the loaded state holds the image's Words in order (R301, R303). -/
theorem State.segRead_loaded (hlen : image.length / 4 ≤ 2 ^ 32 - 1) {k : Nat} (hk : k < image.length / 4) :
    (State.loaded p image inp eofAtEnd).mem.segRead 0 (BitVec.ofNat 32 k) = .ok ((frameImage image).getD k 0) := by
  have hwords := length_frameImage image
  exact Memory.segRead_of_read rfl (Segment.read_ofWords (by omega) (by omega))

end Boot

/-- Settles O14: reset ends in the loaded state, whose pieces are these. -/
theorem bootLoadsImage : Obligations.BootLoadsImage := by
  rintro p image inp eofAtEnd hlen hcap s rfl
  rw [State.boot_of_room hlen hcap]
  exact ⟨rfl, rfl, State.readReg_loaded, rfl, rfl, State.segLen_loaded,
    fun _ hk => State.segRead_loaded hlen hk, rfl, State.runstate_of_running rfl, rfl⟩

/-- Settles O15: reset ends in a fatal error, which is terminal and has a non-zero exit status. -/
theorem bootFailsWithoutRoom : Obligations.BootFailsWithoutRoom := by
  rintro p image inp eofAtEnd h s rfl
  rw [State.boot_eq, if_pos h]
  exact ⟨rfl, ⟨_, rfl, failExitStatus_ne_zero _⟩, step_of_not_running (by simp)⟩

/-- Settles O19: no Words fit any capacity, so reset leaves segment 0 empty and the PC 0 is beyond it, where O22 says the step
fails. -/
theorem shortImageFailsAtFirstFetch : Obligations.ShortImageFailsAtFirstFetch := by
  rintro p image inp eofAtEnd hshort s rfl
  have hzero : image.length / 4 = 0 := Nat.div_eq_of_lt hshort
  rw [State.boot_of_room (by omega) (by omega)]
  have hempty : (State.loaded p image inp eofAtEnd).mem.segLen 0 = .ok 0 := by
    rw [State.segLen_loaded, hzero]
    rfl
  exact ⟨rfl, hempty, fetchBeyondSegmentZeroFails _ 0 rfl hempty (BitVec.le_refl _)⟩

/-! ## New code -/

/-- Settles O58: the store's read after a write and after an install, taken at the PC of the next fetch (R85, R86, R321). -/
theorem newCodeIsFetchedNext : Obligations.NewCodeIsFetchedNext := by
  refine ⟨fun a b c s n hwf ha hlen hlt => ?store, fun b c s w hb hread => ?install⟩
  case store =>
    obtain ⟨g, hg, rfl⟩ := Memory.segLen_ok.1 hlen
    obtain ⟨m, hwrite⟩ := Memory.segWrite_of_lt hg hlt (s.readReg c)
    refine ⟨_, exec_segStore_ok (ha ▸ hwrite), fun u hmem hpc => State.fetch_ok.2 ?_⟩
    calc u.mem.segRead 0 u.pc = m.segRead 0 (s.readReg b) := by rw [hmem, hpc]; rfl
      _ = .ok (s.readReg c) := (Memory.segRead_segWrite hwf hwrite 0 (s.readReg b)).trans (if_pos ⟨rfl, rfl⟩)
  case install =>
    obtain ⟨g, hg, -⟩ := Memory.segRead_ok.1 hread
    obtain ⟨m, hinstall⟩ := Memory.segInstall_of_live hg
    obtain ⟨-, hcopy⟩ := Memory.segInstall_copies hinstall
    exact ⟨_, exec_loadProgram_ok hb hinstall, State.fetch_ok.2 ((hcopy _).trans hread)⟩

end Sys2Proof.Machine

/-! What stands beside the families above: every reset meets the invariant (70_reset_and_hazards.md), the canonical form of a
segment is determined by its length and its reads (20_memory.md), and the sample Words of 95_test_vectors.md decode. -/

namespace Sys2Proof.Machine

/-! ## The invariant after reset -/

section BootInvariant

variable {p : Params} {image inp : List Byte} {eofAtEnd : Bool}

/-- The live Words of the loaded state are the image's (R303). -/
theorem State.liveWords_loaded (hlen : image.length / 4 ≤ 2 ^ 32 - 1) :
    (State.loaded p image inp eofAtEnd).mem.liveWords = image.length / 4 := by
  have hwords : (BitVec.ofNat 32 (frameImage image).length).toNat = image.length / 4 := by
    rw [length_frameImage]
    exact Nat.mod_eq_of_lt (by omega)
  exact hwords

/-- One live segment of the image's Words: nothing is free, and the capacity is what reset has checked. -/
theorem State.loaded_inv (hlen : image.length / 4 ≤ 2 ^ 32 - 1) (hcap : (State.loaded p image inp eofAtEnd).FitsCapacity) :
    (State.loaded p image inp eofAtEnd).Inv := by
  have hframed : (frameImage image).length < 2 ^ 32 := by
    rw [length_frameImage]
    omega
  have hwf : (State.loaded p image inp eofAtEnd).mem.wf = true := by
    simp [State.loaded, Memory.wf, Slot.wf, Segment.ofWords_wf hframed]
  exact .of_running rfl rfl ⟨.of_no_free (by simp) p.one_le_maxHandles hwf, .of_liveWords hcap, _, rfl⟩

end BootInvariant

/-- A fatal error leaves no live Words (R274). -/
theorem State.raiseFatal_fitsCapacity (s : State) (r : FailReason) : (s.raiseFatal r).FitsCapacity := Nat.zero_le _

/-- Settles O18, by the two ways a reset ends: a fatal error meets the invariant whatever was before it, and the loaded state by
its one segment. -/
theorem bootMeetsInvariant : Obligations.BootMeetsInvariant := by
  rintro p image inp eofAtEnd s rfl
  rw [State.boot_eq]
  split_ifs with hroom
  · exact ⟨State.raiseFatal_inv _ _, State.raiseFatal_fitsCapacity _ _, rfl, rfl, rfl, rfl⟩
  · obtain ⟨hlen, hcap⟩ := not_or.1 hroom
    have hfits : (State.loaded p image inp eofAtEnd).FitsCapacity :=
      (State.liveWords_loaded (Nat.le_of_not_lt hlen)).trans_le (Nat.le_of_not_lt hcap)
    exact ⟨State.loaded_inv (Nat.le_of_not_lt hlen) hfits, hfits, rfl, rfl, rfl, rfl⟩

/-- Settles O16: an image of no bytes fits any capacity, and its loaded state is written out in `State.reset`. -/
theorem resetIsBootOfEmptyImage : Obligations.ResetIsBootOfEmptyImage := by
  have hload : State.boot ⟨none, .fatal⟩ [] [] false = State.loaded ⟨none, .fatal⟩ [] [] false :=
    State.boot_of_room (Nat.zero_le _) (Nat.zero_le _)
  exact hload.symm

/-! ## The canonical form is determined by the reads -/

section CanonicalCells

variable {lo lo' hi j j' : Nat} {u u' : Word} {rest rest' l l' : List WordCell}

@[simp] theorem cellsRead_cons_self : cellsRead j ((j, u) :: rest) = u := if_pos rfl

theorem cellsRead_cons_of_ne {i : Nat} (hne : i ≠ j) : cellsRead i ((j, u) :: rest) = cellsRead i rest := if_neg hne

/-- A canonical list reads other than 0 at its first cell. -/
theorem cellsRead_head_ne_zero (hl : cellsOk lo hi ((j, u) :: rest) = true) : cellsRead j ((j, u) :: rest) ≠ 0#32 := by
  obtain ⟨-, -, hu, -⟩ := cellsOk_cons.1 hl
  simpa using hu

/-- Of two canonical lists that read the same at the first one's first cell, the second begins no later: before its own first
cell it would read 0 there. -/
theorem cellsOk_head_le (hl : cellsOk lo hi ((j, u) :: rest) = true) (hl' : cellsOk lo' hi ((j', u') :: rest') = true)
    (hread : cellsRead j ((j, u) :: rest) = cellsRead j ((j', u') :: rest')) : j' ≤ j := by
  obtain ⟨-, hin⟩ := cellsOk_cons.1 hl'
  have hfromHead : cellsOk j' hi ((j', u') :: rest') = true := cellsOk_cons.2 ⟨Nat.le_refl j', hin⟩
  by_contra hbefore
  exact cellsRead_head_ne_zero hl (hread.trans (cellsRead_below hfromHead (Nat.lt_of_not_le hbefore)))

/-- Canonical lists with the same reads are equal: their first cells lie at one offset and hold one Word, and what follows reads
the same because both read 0 up to there. -/
theorem cells_eq_of_reads (hl : cellsOk lo hi l = true) (hl' : cellsOk lo' hi l' = true)
    (hread : ∀ i, i < hi → cellsRead i l = cellsRead i l') : l = l' := by
  induction l generalizing lo lo' l' with
  | nil =>
    cases l' with
    | nil => rfl
    | cons c' rest' =>
      obtain ⟨-, hhi', -, -⟩ := cellsOk_cons.1 hl'
      exact absurd (hread _ hhi').symm (cellsRead_head_ne_zero hl')
  | cons c rest ih =>
    obtain ⟨-, hhi, -, hrest⟩ := cellsOk_cons.1 hl
    cases l' with
    | nil => exact absurd (hread _ hhi) (cellsRead_head_ne_zero hl)
    | cons c' rest' =>
      obtain ⟨j, u⟩ := c
      obtain ⟨j', u'⟩ := c'
      obtain ⟨-, hhi', -, hrest'⟩ := cellsOk_cons.1 hl'
      obtain rfl : j = j' :=
        Nat.le_antisymm (cellsOk_head_le hl' hl (hread j' hhi').symm) (cellsOk_head_le hl hl' (hread j hhi))
      obtain rfl : u = u' := by simpa using hread j hhi
      have hreadRest : ∀ i, i < hi → cellsRead i rest = cellsRead i rest' := by
        intro i hi'
        by_cases hij : i = j
        · rw [cellsRead_below hrest (by omega), cellsRead_below hrest' (by omega)]
        · simpa only [cellsRead_cons_of_ne hij] using hread i hi'
      rw [ih hrest hrest' hreadRest]

end CanonicalCells

/-- Below its length a segment reads as its cells do (R65). -/
theorem Segment.read_of_lt_len {g : Segment} {i : Nat} (hi : i < g.len.toNat) :
    g.read (BitVec.ofNat 32 i) = some (cellsRead i g.cells) := by
  have hindex : (BitVec.ofNat 32 i).toNat = i := Nat.mod_eq_of_lt (hi.trans g.len.isLt)
  have hlt : BitVec.ofNat 32 i < g.len := by rwa [BitVec.lt_def, hindex]
  rw [Segment.read, if_pos hlt, hindex]

/-- Settles O41: the reads of a segment are those of its cells at every offset below the length, and these determine the
cells. -/
theorem equalReadsMeanEqualSegments : Obligations.EqualReadsMeanEqualSegments := by
  rintro ⟨len, cells⟩ ⟨_, cells'⟩ hwf hwf' rfl hread
  have hcells : ∀ i, i < len.toNat → cellsRead i cells = cellsRead i cells' := fun i hi =>
    Option.some.inj <| calc some (cellsRead i cells)
      _ = Segment.read ⟨len, cells⟩ (BitVec.ofNat 32 i) := (Segment.read_of_lt_len (g := ⟨len, cells⟩) hi).symm
      _ = Segment.read ⟨len, cells'⟩ (BitVec.ofNat 32 i) := hread _
      _ = some (cellsRead i cells') := Segment.read_of_lt_len (g := ⟨len, cells'⟩) hi
  obtain rfl : cells = cells' := cells_eq_of_reads hwf hwf' hcells
  rfl

/-! ## Sample Words -/

/-- Settles O1 by running the decoder on each of the eleven Words. -/
theorem decodeSampleWords : Obligations.DecodeSampleWords := by
  unfold Obligations.DecodeSampleWords
  decide

end Sys2Proof.Machine
